-- ==== Sys2Proof/Word.lean ====
section
/-! DEFINITION. The word types of the transceiver (10_state.md R20, 30_encoding.md R80, R81, R84). -/

namespace Sys2Proof

/-- The logic level of one wire, or one sampled bit: `true` is logic 1 (00_scope.md R10, `sample`, `drive`). -/
abbrev Level := Bool

/-- One of the 8-bit data registers (10_state.md R20); bit 7 is the most significant (00_scope.md R9). -/
abbrev Byte := BitVec 8

/-- A bit counter, 4 bits of storage (10_state.md R24, R25). -/
abbrev Count := BitVec 4

/-- The host command word `cw = {h_op, h_wdata}`, format H (30_encoding.md R81). -/
abbrev CommandWord := BitVec 10

/-- The host response word `rw = {h_rvalid, h_rdata}`, format Q (30_encoding.md R84). -/
abbrev ResponseWord := BitVec 9

end Sys2Proof
end

