-- ==== Sys2Proof/Config.lean ====
section
/-! DEFINITION. What an implementation fixes, and the values the spec leaves open (00_scope.md R5).
The constants without a body are open parameters of the spec: nothing can be proved of their values. -/

namespace Sys2Proof.Config

/-- `PENDING_RESET`, the byte the first cycle sends when the host has armed none (92_eei_decisions.md D9; log entry 6). -/
def pendingReset : Byte := 0x00#8

/-- `SOUT_RESET`, the level of SOUT from `INIT` to the first `EDGE`: OPEN (92_eei_decisions.md D10; log entry 5). -/
opaque soutReset : Level

/-- `COINCIDENT_ORDER`: whether the host operation comes first in the `n`-th coincidence of a host operation and an
`EDGE`: OPEN, both orders are admitted (20_memory.md R65, 92_eei_decisions.md D11; log entry 7). -/
opaque hostFirst (n : Nat) : Bool

end Sys2Proof.Config
end

