-- ==== Sys2Proof/Syntax.lean ====
section
/-! DEFINITION. The operations of the block (every row of spec/opcode_table.json), the agents that issue them, the
encoded forms in which they reach its ports, and the trace notation's abbreviations (00_scope.md R6, 30_encoding.md
R80, R91, R92). -/

namespace Sys2Proof

/-- One operation: an atomic event applied to the block (00_scope.md section 1). -/
inductive Instr where
  /-- The host presents no operation (42_system.md R138). -/
  | nop
  /-- `arm_transmit(b)` (41_byte_exchange.md R120). -/
  | arm (b : Byte)
  /-- `try_take_received()` (41_byte_exchange.md R121). -/
  | take
  /-- The reserved host code `op = 0b11` (42_system.md R139). -/
  | reserved
  /-- One falling edge of SCK with the sampled level of SIN (40_link_engine.md R100). -/
  | edge (bitIn : Level)
  /-- The one-time initialization (42_system.md R135). -/
  | init
  deriving DecidableEq, Repr

/-- The three agents that apply operations (00_scope.md R6). LINK acts in the edge-handler context, HOST in the
foreground context (60_exceptions.md R164). -/
inductive Agent where
  | link
  | host
  | reset
  deriving DecidableEq, Repr

/-- The agent that issues an operation (00_scope.md R6). -/
def Instr.agent : Instr → Agent
  | .nop => .host
  | .arm _ => .host
  | .take => .host
  | .reserved => .host
  | .edge _ => .link
  | .init => .reset

/-- The mnemonic of an operation's row in the opcode table. -/
def Instr.mnemonic : Instr → String
  | .nop => "NOP"
  | .arm _ => "ARM"
  | .take => "TAKE"
  | .reserved => "RESERVED"
  | .edge _ => "EDGE"
  | .init => "INIT"

/-- An encoded operation at the port it reaches (30_encoding.md R80): format H, format L or format R. -/
inductive PortWord where
  /-- Format H: one host command word. -/
  | command (cw : CommandWord)
  /-- Format L: one detected falling edge of SCK and the sample of SIN. -/
  | link (i : Level)
  /-- Format R: one assertion of `rst`, zero bits wide. -/
  | reset
  deriving DecidableEq, Repr

/-- Why bits handed to the decoder are no operation. None of these is a word of a port: on the ports themselves every
word is an operation (30_encoding.md R89). -/
inductive DecodeReject where
  /-- No format of the block is that wide. -/
  | noFormatOfThisWidth
  /-- Bits above bit 9, which the host port does not have. -/
  | bitsAboveTheCommandWord
  /-- Bits above bit 0, which a link event does not have. -/
  | bitsAboveTheSample
  /-- Bits in a reset event, which carries none. -/
  | bitsInAResetEvent
  deriving DecidableEq, Repr

/-- The bits of a byte in the order of the wire, bit 7 first (20_memory.md R52, 30_encoding.md R87). -/
def frameBits (b : Byte) : List Level :=
  [b.getLsbD 7, b.getLsbD 6, b.getLsbD 5, b.getLsbD 4, b.getLsbD 3, b.getLsbD 2, b.getLsbD 1, b.getLsbD 0]

/-- The abbreviation `EDGES b1 ... bk` (30_encoding.md R92). -/
def edges (bs : List Level) : List Instr := bs.map .edge

/-- The abbreviation `RXBYTE 0xNN`: the primary clocks the byte in, MSB first (30_encoding.md R92). -/
def rxByte (b : Byte) : List Instr := edges (frameBits b)

/-- The abbreviation `POLL` that takes `k` further `TAKE`s after its first (30_encoding.md R92). -/
def poll (k : Nat) : List Instr := List.replicate (k + 1) .take

end Sys2Proof
end

