-- ==== Sys2Proof/Machine/State.lean ====
section
/-! DEFINITION. The state, why a step can stop, and the state after reset (10_state.md R20, R40). -/

namespace Sys2Proof.Machine

/-- Where a run stands with respect to `INIT`. The model's own field: the spec starts every run with `INIT` and gives
the time before it no behaviour (00_scope.md R7, 42_system.md R137; log entry 3). -/
inductive Lifecycle where
  | beforeInit
  | running
  deriving DecidableEq, Repr

/-- What the outside presents at the ports in one instant (10_state.md R38, R39; log entries 2 and 12). -/
inductive Arrival where
  /-- A host cycle with this command word on `{h_op, h_wdata}`. -/
  | command (cw : CommandWord)
  /-- A detected falling transition of SCK, with SIN at this level when the engine samples it. -/
  | fall (sin : Level)
  /-- A rising transition of SCK. -/
  | rise
  /-- A host cycle and a falling transition of SCK in the same instant (20_memory.md R65). -/
  | coincident (cw : CommandWord) (sin : Level)
  /-- One assertion of `rst`. -/
  | rst
  deriving DecidableEq, Repr

/-- The machine: the eight fields the spec gives the block, then the model's own four. -/
structure State where
  /-- Bits of the incoming byte received so far in the cycle (10_state.md R21). -/
  rxAcc : Byte
  /-- How many bits `rxAcc` holds; 0 to 7 at rest (10_state.md R24). -/
  rxCnt : Count
  /-- The byte being clocked out in the cycle (10_state.md R22). -/
  txByte : Byte
  /-- How many bits of `txByte` have been driven; 0 to 7 at rest (10_state.md R25). -/
  txCnt : Count
  /-- The last fully received byte (10_state.md R23). -/
  latched : Byte
  /-- The ready flag (10_state.md R29). -/
  ready : Bool
  /-- The byte queued for the next cycle (10_state.md R28). -/
  pending : Byte
  /-- The level driven on pin SOUT (10_state.md R30). -/
  sout : Level
  /-- The model's own: whether `INIT` has been applied (log entry 3). -/
  lifecycle : Lifecycle
  /-- The model's own: the response word on `{h_rvalid, h_rdata}` of the host operation just applied; `none` when the
  last step applied no host operation. No operation reads it (10_state.md R39, 30_encoding.md R84; log entry 1). -/
  response : Option ResponseWord
  /-- The model's own: what the outside will present, oldest first (20_memory.md R62; log entry 2). -/
  arrivals : List Arrival
  /-- The model's own: how many coincidences have been ordered, the argument of the next draw of
  `Config.hostFirst` (20_memory.md R65; log entry 7). -/
  coincidences : Nat
  deriving DecidableEq, Repr

/-- The whole state of the block itself: the eight fields of 10_state.md R20 and nothing else. -/
structure Block where
  rxAcc : Byte
  rxCnt : Count
  txByte : Byte
  txCnt : Count
  latched : Byte
  ready : Bool
  pending : Byte
  sout : Level
  deriving DecidableEq, Repr

/-- What the outside observes of a state (00_scope.md R8): the level of SOUT, the response of the host operation just
applied, and the line `rx_ready`. -/
structure Observation where
  sout : Level
  response : Option ResponseWord
  rxReady : Level
  deriving DecidableEq, Repr

/-- Why the machine has no step. The hardware itself has no fault (60_exceptions.md R150). -/
inductive Fault where
  /-- Raised by every operation but `INIT`, and by a transition of SCK, when `INIT` has not been applied: no agent has
  a step there (42_system.md R137, 93_implementation_defined.md U13 `stuck`). Safe. -/
  | stuckBeforeInit
  deriving DecidableEq, Repr

/-- Why an operation has no meaning. -/
inductive Refusal where
  /-- Raised by `exec` for an operation that has no meaning yet: none is left. Safe. -/
  | notModelled (mnemonic : String)
  /-- Raised by `INIT` when `INIT` has been applied: "re-initialization behavior is undefined and out of scope"
  (42_system.md R136, 93_implementation_defined.md U1 `refuse`). Safe. -/
  | secondInit
  /-- Raised by `EDGE` in a state outside the invariants of the reachable states, to which the spec gives no meaning
  (10_state.md R36, 93_implementation_defined.md U12 `refuse`); no run reaches one. Safe. -/
  | outsideInvariants
  deriving DecidableEq, Repr

/-- The outcome type of every meaning. -/
abbrev Out := Host.Outcome State Fault Refusal

/-- The state after `INIT`, which is the model's initial state (10_state.md R40, 42_system.md R137). -/
def State.reset : State where
  rxAcc := 0x00#8
  rxCnt := 0#4
  txByte := 0x00#8
  txCnt := 0#4
  latched := 0x00#8
  ready := false
  pending := Config.pendingReset
  sout := Config.soutReset
  lifecycle := .running
  response := none
  arrivals := []
  coincidences := 0

end Sys2Proof.Machine
end

