-- ==== Sys2Proof/Machine/Flags.lean ====
section
/-! DEFINITION. The one flag, `ready`, and the line that shows it (10_state.md R29, R39). There are no arithmetic
condition codes. -/

namespace Sys2Proof.Machine

/-- The engine sets `ready` in the step that latches a byte; setting it again leaves it set (10_state.md R29). -/
def State.setReady (s : State) : State := { s with ready := true }

/-- The consumer clears `ready` (10_state.md R29). -/
def State.clearReady (s : State) : State := { s with ready := false }

/-- The line `rx_ready`, continuously equal to `ready` (10_state.md R39, 60_exceptions.md R158). -/
def State.rxReady (s : State) : Level := s.ready

end Sys2Proof.Machine
end

