-- ==== Sys2Proof/WellFormed.lean ====
section
/-! DEFINITION. What conforming software and a legal run may contain. The types already bound every operand (a byte, a
bit), so the checks are the spec's rules on use: the reserved code must not be issued (30_encoding.md R89), and `INIT`
comes first and once (42_system.md R136, 70_reset_and_hazards.md R182). The machine does not rely on them: it gives
every operation an outcome. -/

namespace Sys2Proof

/-- Why an operation or a run is refused by the check. -/
inductive IllFormed where
  /-- Host software must not issue the reserved code (42_system.md R139). -/
  | reservedCode
  /-- A run starts with `INIT` (00_scope.md R7). -/
  | initMissing
  /-- A second `INIT` (42_system.md R136). -/
  | initTwice
  deriving DecidableEq, Repr

/-- The check of one operation. -/
def Instr.illFormed : Instr → Option IllFormed
  | .nop => none
  | .arm _ => none
  | .take => none
  | .reserved => some .reservedCode
  | .edge _ => none
  | .init => none

/-- An operation that a conforming run may contain. -/
def Instr.wellFormed (i : Instr) : Bool := i.illFormed.isNone

/-- The check of what follows the first `INIT` of a run. -/
def illFormedAfterInit : List Instr → Option IllFormed
  | [] => none
  | i :: is => if i = .init then some .initTwice else (i.illFormed <|> illFormedAfterInit is)

/-- The check of a whole run (00_scope.md R7, 42_system.md R136). -/
def illFormedRun : List Instr → Option IllFormed
  | [] => some .initMissing
  | i :: is => if i = .init then illFormedAfterInit is else some .initMissing

/-- A run as the spec defines one: `INIT`, then operations that conforming agents issue. -/
def wellFormedRun (ops : List Instr) : Bool := (illFormedRun ops).isNone

end Sys2Proof
end

