-- ==== Sys2Proof/Decode.lean ====
section
/-! DEFINITION. The decoder, the encoder, the response word and the serial frame (30_encoding.md). -/

namespace Sys2Proof

/-- The field `op = cw[9:8]` (30_encoding.md R81). -/
def commandOp (cw : CommandWord) : BitVec 2 := cw.extractLsb' 8 2

/-- The field `data = cw[7:0]`, the operand of `ARM`, used as it is (30_encoding.md R81, R93). -/
def commandData (cw : CommandWord) : Byte := cw.extractLsb' 0 8

/-- A row of the opcode map of format H (30_encoding.md R82). -/
structure CommandRow where
  mnemonic : String
  matchBits : CommandWord
  mask : CommandWord
  deriving DecidableEq, Repr

/-- The opcode map of format H, row for row (30_encoding.md R82). -/
def commandTable : List CommandRow :=
  [ { mnemonic := "NOP",      matchBits := 0x000#10, mask := 0x300#10 },
    { mnemonic := "ARM",      matchBits := 0x100#10, mask := 0x300#10 },
    { mnemonic := "TAKE",     matchBits := 0x200#10, mask := 0x300#10 },
    { mnemonic := "RESERVED", matchBits := 0x300#10, mask := 0x300#10 } ]

/-- A command word selects a row with `(cw & mask) = match` (30_encoding.md R82). -/
def CommandRow.selectedBy (r : CommandRow) (cw : CommandWord) : Bool := (cw &&& r.mask) == r.matchBits

/-- The operation of a host command word (30_encoding.md R82); bits 7 to 0 are read by `ARM` alone (R83). -/
def decodeCommand (cw : CommandWord) : Instr :=
  if cw &&& 0x300#10 = 0x000#10 then .nop
  else if cw &&& 0x300#10 = 0x100#10 then .arm (commandData cw)
  else if cw &&& 0x300#10 = 0x200#10 then .take
  else .reserved

/-- The operation that an encoded form selects (30_encoding.md R80): every port word is an operation. -/
def decodePort : PortWord → Instr
  | .command cw => decodeCommand cw
  | .link i => .edge i
  | .reset => .init

/-- The port word in a container of `nbits` bits: none for a reset event, one byte for a link event, two bytes for a
command word; the bits of the container that the port does not have must be 0 (log entry 11). -/
def portWordOf (nbits w : Nat) : Except DecodeReject PortWord :=
  if nbits = 0 then
    if w = 0 then .ok .reset else .error .bitsInAResetEvent
  else if nbits ≤ 8 then
    if w < 2 then .ok (.link (w == 1)) else .error .bitsAboveTheSample
  else if nbits ≤ 16 then
    if w < 1024 then .ok (.command (BitVec.ofNat 10 w)) else .error .bitsAboveTheCommandWord
  else .error .noFormatOfThisWidth

/-- The decoder, total on any bits: an operation, or a rejection by name. -/
def decodeWord (nbits w : Nat) : Except DecodeReject Instr := (portWordOf nbits w).map decodePort

/-- The instruction the decoder reads from an opcode-table word. -/
def decodeTableWord (nbits w : Nat) : Option Instr := (decodeWord nbits w).toOption

/-- The encoder; the ignored bits are zeros, as an assembler emits them (30_encoding.md R82, R83, R85, R88, R91). -/
def encode : Instr → PortWord
  | .nop => .command 0x000#10
  | .arm b => .command (0x100#10 + b.setWidth 10)
  | .take => .command 0x200#10
  | .reserved => .command 0x300#10
  | .edge i => .link i
  | .init => .reset

/-- The width of a port word's container in bits, in whole bytes (log entry 11). -/
def PortWord.containerBits : PortWord → Nat
  | .command _ => 16
  | .link _ => 8
  | .reset => 0

/-- A port word as a number, bit 0 least significant. -/
def PortWord.value : PortWord → Nat
  | .command cw => cw.toNat
  | .link i => i.toNat
  | .reset => 0

/-- The response word of `some(b)` and of `none`, format Q (30_encoding.md R84, 00_scope.md R11). -/
def responseWord : Option Byte → ResponseWord
  | none => 0x000#9
  | some b => 0x100#9 + b.setWidth 9

/-- What a response word says: `some` of its data when `valid` is 1, else `none` with no data (00_scope.md R11). -/
def readResponse (rw : ResponseWord) : Option Byte :=
  if rw.getLsbD 8 then some (rw.extractLsb' 0 8) else none

/-- The byte carried by bits in the order of the wire: the first of eight weighs 128, the last 1 (30_encoding.md R86). -/
def frameByte (bits : List Level) : Byte := BitVec.ofNat 8 (bits.foldl (fun n b => 2 * n + b.toNat) 0)

end Sys2Proof
end

