-- ==== Sys2Proof/Machine/Operands.lean ====
section
/-! DEFINITION. The operands and the arithmetic of the operations (40_link_engine.md R101 to R108). All of it is
unsigned, and every function reads the state before the operation. -/

namespace Sys2Proof.Machine

/-- Step 2 of `EDGE`: `((rx_acc << 1) | bit_in)[7:0]` (40_link_engine.md R102). -/
def shiftIn (acc : Byte) (bitIn : Level) : Byte := (acc <<< 1) ||| (BitVec.ofBool bitIn).setWidth 8

/-- `rc' = rx_cnt + 1` (40_link_engine.md R100 step 2). -/
def State.nextRxCnt (s : State) : Count := s.rxCnt + 1#4

/-- `tc' = tx_cnt + 1` (40_link_engine.md R105). -/
def State.nextTxCnt (s : State) : Count := s.txCnt + 1#4

/-- Step 3a: the byte of this cycle, read from `pending` at the first edge only (40_link_engine.md R103). -/
def State.cycleByte (s : State) : Byte := if s.txCnt = 0#4 then s.pending else s.txByte

/-- Step 3b: the index `7 - tx_cnt`, with the count before its increment (40_link_engine.md R104). -/
def State.outIndex (s : State) : Nat := 7 - s.txCnt.toNat

/-- Step 3b: the bit driven on SOUT (40_link_engine.md R104). -/
def State.outBit (s : State) : Level := s.cycleByte.getLsbD s.outIndex

/-- Step 5: whether this edge completes a byte; the test is on the incremented receive count (40_link_engine.md R106). -/
def State.endsByte (s : State) : Bool := s.nextRxCnt == 8#4

end Sys2Proof.Machine
end

