-- ==== Sys2Proof/Machine/Ops.lean ====
section
/-! DEFINITION. The named operations over the registers, the mailboxes and the pins; when an operation may be applied
at all; and what the environment presents next. The block has no memory (20_memory.md R50), and no exception to take
or to return from (60_exceptions.md R150): the one inbound interrupt is the falling edge itself, whose entry saves
nothing and performs exactly `EDGE` (60_exceptions.md R161, R163). -/

namespace Sys2Proof.Machine

/-- The eight fields of the block (10_state.md R20). -/
def State.block (s : State) : Block where
  rxAcc := s.rxAcc
  rxCnt := s.rxCnt
  txByte := s.txByte
  txCnt := s.txCnt
  latched := s.latched
  ready := s.ready
  pending := s.pending
  sout := s.sout

/-- What the outside observes of a state (00_scope.md R8). -/
def State.observe (s : State) : Observation where
  sout := s.sout
  response := s.response
  rxReady := s.rxReady

/-- `respond(valid, data)` on the host port: `some(b)` or `none` (30_encoding.md R84). -/
def State.respond (s : State) (r : Option Byte) : State := { s with response := some (responseWord r) }

/-- A step that applies no host operation answers nothing on the host port. -/
def State.noResponse (s : State) : State := { s with response := none }

/-- `drive(SOUT, b); sout <- b` (40_link_engine.md R104). -/
def State.drive (s : State) (b : Level) : State := { s with sout := b }

/-- The host's 8-bit store to the transmit mailbox (10_state.md R32). -/
def State.armPending (s : State) (b : Byte) : State := { s with pending := b }

/-- The engine's 9-bit store `{ready, latched} <- {1, b}` (10_state.md R31). -/
def State.latchByte (s : State) (b : Byte) : State := { s with latched := b }.setReady

/-- The host's read-and-clear of the receive mailbox, with its response (41_byte_exchange.md R121). -/
def State.takeLatched (s : State) : State :=
  if s.ready then s.clearReady.respond (some s.latched) else s.respond none

/-- The shift registers inside a cycle (40_link_engine.md R100, the `else` of step 5). -/
def State.storeShift (s : State) (acc : Byte) (rc : Count) (txb : Byte) (tc : Count) : State :=
  { s with rxAcc := acc, rxCnt := rc, txByte := txb, txCnt := tc }

/-- The shift registers ready for the next byte (40_link_engine.md R106). -/
def State.clearShift (s : State) : State := s.storeShift 0x00#8 0#4 0x00#8 0#4

/-- The whole effect of `EDGE` on the state (40_link_engine.md R100). -/
def State.afterEdge (s : State) (bitIn : Level) : State :=
  let driven := (s.drive s.outBit).noResponse
  let acc := shiftIn s.rxAcc bitIn
  if s.endsByte then (driven.latchByte acc).clearShift
  else driven.storeShift acc s.nextRxCnt s.cycleByte s.nextTxCnt

/-- The whole effect of `INIT` on the state (42_system.md R135): every field at its reset value, and from here on the
engine is connected to the falling edge of SCK. -/
def State.afterInit (s : State) : State :=
  { s with
    rxAcc := 0x00#8, rxCnt := 0#4, txByte := 0x00#8, txCnt := 0#4, latched := 0x00#8, ready := false,
    pending := Config.pendingReset, sout := Config.soutReset, lifecycle := .running, response := none }

/-- The invariants (a), (b) and (c) of the reachable states (10_state.md R36, 93_implementation_defined.md U12). -/
def State.lawful (s : State) : Bool :=
  s.rxCnt == s.txCnt && decide (s.rxCnt.toNat ≤ 7) && decide (s.rxAcc.toNat < 2 ^ s.rxCnt.toNat)

/-- The same, as a proposition. -/
abbrev State.Lawful (s : State) : Prop := s.lawful = true

/-- Go on to `t`, unless `INIT` has not been applied (42_system.md R137, 93_implementation_defined.md U13). -/
def State.whenRunning (s t : State) : Out :=
  match s.lifecycle with
  | .running => .next t
  | .beforeInit => .fault .stuckBeforeInit

/-- Go on to `t` in a state to which the spec gives a meaning (10_state.md R36, 93_implementation_defined.md U12). -/
def State.whenLawful (s t : State) : Out :=
  if s.lifecycle = .running ∧ ¬ s.Lawful then .refused .outsideInvariants else s.whenRunning t

/-- What a rising transition of SCK does: nothing (60_exceptions.md R155). -/
def State.risingTransition (s : State) : Out := s.whenRunning s.noResponse

/-- What the step takes from the outside: the next encoded operation, or `none` for a rising transition of SCK, and the
state from which it is applied. With nothing presented the host port carries the idle code `NOP` (10_state.md R39,
42_system.md R138). Of a coincidence, the operation drawn first is taken and the other one is presented next, whole
(20_memory.md R65). -/
def State.fetch (s : State) : Option PortWord × State :=
  match s.arrivals with
  | [] => (some (.command 0x000#10), s)
  | .command cw :: rest => (some (.command cw), { s with arrivals := rest })
  | .fall b :: rest => (some (.link b), { s with arrivals := rest })
  | .rise :: rest => (none, { s with arrivals := rest })
  | .rst :: rest => (some .reset, { s with arrivals := rest })
  | .coincident cw b :: rest =>
    if Config.hostFirst s.coincidences then
      (some (.command cw), { s with arrivals := .fall b :: rest, coincidences := s.coincidences + 1 })
    else
      (some (.link b), { s with arrivals := .command cw :: rest, coincidences := s.coincidences + 1 })

/-- The presentation of an encoded operation at its port. -/
def arrivalOf : PortWord → Arrival
  | .command cw => .command cw
  | .link b => .fall b
  | .reset => .rst

/-- Present an operation next. `INIT` is an operation only where it has not been applied, so presenting it takes the
machine to where a run begins (42_system.md R136; log entry 4). -/
def State.present (s : State) (pw : PortWord) : State :=
  match pw with
  | .command cw => { s with arrivals := .command cw :: s.arrivals }
  | .link b => { s with arrivals := .fall b :: s.arrivals }
  | .reset => { s with arrivals := .rst :: s.arrivals, lifecycle := .beforeInit }

end Sys2Proof.Machine
end

