-- ==== Sys2Proof/Machine/Exchange.lean ====
section
/-! DEFINITION. The byte exchange family: `ARM` and `TAKE` (41_byte_exchange.md). -/

namespace Sys2Proof.Machine

/-- `ARM(b)`: overwrite `pending`, answer `none` (41_byte_exchange.md R120). -/
def execArm (b : Byte) (s : State) : Out := s.whenRunning ((s.armPending b).respond none)

/-- `TAKE`: read and clear `ready`, answer the latched byte if it was set (41_byte_exchange.md R121). -/
def execTake (s : State) : Out := s.whenRunning s.takeLatched

end Sys2Proof.Machine
end

