-- ==== Sys2Proof/Machine/Link.lean ====
section
/-! DEFINITION. The link family: `EDGE` (40_link_engine.md). -/

namespace Sys2Proof.Machine

/-- `EDGE(bit_in)`, the engine's reaction to one falling edge of SCK (40_link_engine.md R100). -/
def execEdge (bitIn : Level) (s : State) : Out := s.whenLawful (s.afterEdge bitIn)

end Sys2Proof.Machine
end

