-- ==== Sys2Proof/Machine/System.lean ====
section
/-! DEFINITION. The system family: `INIT`, `NOP` and the reserved code (42_system.md). -/

namespace Sys2Proof.Machine

/-- `INIT`: first in a run it sets every field; a second one has no meaning (42_system.md R135, R136). -/
def execInit (s : State) : Out :=
  match s.lifecycle with
  | .beforeInit => .next s.afterInit
  | .running => .refused .secondInit

/-- `NOP`: answer `none` and change nothing (42_system.md R138). -/
def execNop (s : State) : Out := s.whenRunning (s.respond none)

/-- The reserved code: the hardware does what it does for `NOP` (42_system.md R139; log entry 8). -/
def execReserved (s : State) : Out := s.whenRunning (s.respond none)

end Sys2Proof.Machine
end

