-- ==== Sys2Proof/Machine/Dispatch.lean ====
section
/-! DEFINITION. One arm per operation. -/

namespace Sys2Proof.Machine

def exec (i : Instr) (s : State) : Host.Outcome State Fault Refusal :=
  match i with
  | .nop => Sys2Proof.Machine.execNop s
  | .arm b => Sys2Proof.Machine.execArm b s
  | .take => Sys2Proof.Machine.execTake s
  | .reserved => Sys2Proof.Machine.execReserved s
  | .edge bitIn => Sys2Proof.Machine.execEdge bitIn s
  | .init => Sys2Proof.Machine.execInit s

end Sys2Proof.Machine
end

