-- ==== Sys2Proof/Machine/Step.lean ====
section
/-! DEFINITION. One step: take what the outside presents, decode it, apply it (20_memory.md R62). -/

namespace Sys2Proof.Machine

/-- One atomic operation in the run's total order; a rising transition of SCK is a step that applies none. -/
def step (s : State) : Host.Outcome State Fault Refusal :=
  match s.fetch with
  | (some pw, t) => exec (decodePort pw) t
  | (none, t) => t.risingTransition

/-- The operation of an opcode-table word, presented at its port so that the next step applies it. -/
def State.withFetchWord (s : State) (nbits w : Nat) : State :=
  match portWordOf nbits w with
  | .ok pw => s.present pw
  | .error _ => s

end Sys2Proof.Machine
end

