-- ==== Sys2Proof/Safety.lean ====
section
/-! DEFINITION. Runs, what they let the outside observe, and the invariant of the states between operations: the terms
the claims are made in (00_scope.md R7, R8, R14; 10_state.md R36). -/

namespace Sys2Proof.Machine

/-- The invariant of every running state: (a), (b) and (c) of 10_state.md R36 and the second half of its (d). -/
abbrev State.Inv (s : State) : Prop :=
  s.lifecycle = .running → s.Lawful ∧ (s.txCnt = 0#4 → s.txByte = 0x00#8)

/-- Apply operations one after another, stopping at the first that has no next state (20_memory.md R62). -/
def runOps : List Instr → State → Out
  | [], s => .next s
  | i :: is, s =>
    match exec i s with
    | .next t => runOps is t
    | .fault r => .fault r
    | .refused r => .refused r

/-- So many steps, stopping at the first that has no next state: `Host.Core.run` on this machine. -/
def runSteps : Nat → State → Out
  | 0, s => .next s
  | k + 1, s =>
    match step s with
    | .next t => runSteps k t
    | .fault r => .fault r
    | .refused r => .refused r

/-- What the outside observes after each operation of a run (00_scope.md R8). -/
def observations : List Instr → State → List Observation
  | [], _ => []
  | i :: is, s =>
    match exec i s with
    | .next t => t.observe :: observations is t
    | .fault _ => []
    | .refused _ => []

/-- The sampled bit of an `EDGE`; no other operation has one. -/
def sampleOf : Instr → Option Level
  | .nop => none
  | .arm _ => none
  | .take => none
  | .reserved => none
  | .edge b => some b
  | .init => none

/-- The byte an operation leaves in `pending`, given the one before: only `ARM` and `INIT` write it (10_state.md R28). -/
def pendingAfter : Instr → Byte → Byte
  | .nop, p => p
  | .arm b, _ => b
  | .take, p => p
  | .reserved, p => p
  | .edge _, p => p
  | .init, _ => Config.pendingReset

/-- The bits the primary clocked in during a run, oldest first. -/
def edgeInputs (ops : List Instr) : List Level := ops.filterMap sampleOf

/-- How many `EDGE` operations a run holds. -/
def edgeCount (ops : List Instr) : Nat := (edgeInputs ops).length

/-- The host's operations of a run, in program order. -/
def hostOps (ops : List Instr) : List Instr := ops.filter (fun i => i.agent == .host)

/-- The byte in `pending` after the operations, given the one before: that of the last `ARM`, if there is one. -/
def lastArmed (ops : List Instr) (p : Byte) : Byte := ops.foldl (fun q i => pendingAfter i q) p

/-- The levels SOUT is driven to by the `EDGE` operations of a run, oldest first. -/
def drivenLevels : List Instr → State → List Level
  | [], _ => []
  | i :: is, s =>
    match exec i s with
    | .next t => if (sampleOf i).isSome then t.sout :: drivenLevels is t else drivenLevels is t
    | .fault _ => []
    | .refused _ => []

/-- The answers of the host operations of a run, oldest first: `some` byte or `none` for each (00_scope.md R8). -/
def hostAnswers : List Instr → State → List (Option Byte)
  | [], _ => []
  | i :: is, s =>
    match exec i s with
    | .next t =>
      match t.response with
      | some rw => readResponse rw :: hostAnswers is t
      | none => hostAnswers is t
    | .fault _ => []
    | .refused _ => []

/-- The bytes the host receives in a run: the `some` answers (30_encoding.md R84). -/
def receivedBytes (ops : List Instr) (s : State) : List Byte := (hostAnswers ops s).filterMap id

/-- Cut a bit sequence into whole bytes and the bits of an unfinished one, starting from the bits `part` of a byte
already begun: byte alignment is purely positional (20_memory.md R56). -/
def cutFrames (part : List Level) : List Level → List Byte × List Level
  | [] => ([], part)
  | b :: bs =>
    if part.length = 7 then
      let rest := cutFrames [] bs
      (frameByte (part ++ [b]) :: rest.1, rest.2)
    else cutFrames (part ++ [b]) bs

/-- The bits that the falling transitions of a schedule carry, in order. -/
def linkBits (arrivals : List Arrival) : List Level :=
  arrivals.filterMap fun
    | .command _ => none
    | .fall b => some b
    | .rise => none
    | .coincident _ b => some b
    | .rst => none

/-- The host operations that a schedule carries, in order. -/
def hostCommands (arrivals : List Arrival) : List Instr :=
  arrivals.filterMap fun
    | .command cw => some (decodeCommand cw)
    | .fall _ => none
    | .rise => none
    | .coincident cw _ => some (decodeCommand cw)
    | .rst => none

/-- How many steps a schedule takes: two for a coincidence, one for anything else. -/
def stepsFor : List Arrival → Nat
  | [] => 0
  | .command _ :: rest => 1 + stepsFor rest
  | .fall _ :: rest => 1 + stepsFor rest
  | .rise :: rest => 1 + stepsFor rest
  | .coincident _ _ :: rest => 2 + stepsFor rest
  | .rst :: rest => 1 + stepsFor rest

/-- What the steps over a schedule apply, in order: an operation, or `none` for a rising transition of SCK. Of a
coincidence, the operation drawn first comes first (20_memory.md R65); the number counts the coincidences ordered
before. -/
def scheduled : List Arrival → Nat → List (Option Instr)
  | [], _ => []
  | .command cw :: rest, n => some (decodeCommand cw) :: scheduled rest n
  | .fall b :: rest, n => some (.edge b) :: scheduled rest n
  | .rise :: rest, n => none :: scheduled rest n
  | .coincident cw b :: rest, n =>
    if Config.hostFirst n then some (decodeCommand cw) :: some (.edge b) :: scheduled rest (n + 1)
    else some (.edge b) :: some (decodeCommand cw) :: scheduled rest (n + 1)
  | .rst :: rest, n => some .init :: scheduled rest n

/-- What the steps over all that is presented apply. -/
def State.scheduledActs (s : State) : List (Option Instr) := scheduled s.arrivals s.coincidences

/-- The operations among them: the total order of 20_memory.md R62. -/
def State.scheduledOps (s : State) : List Instr := s.scheduledActs.reduceOption

/-- What the outside observes after each of so many steps (00_scope.md R8). -/
def stepObservations : Nat → State → List Observation
  | 0, _ => []
  | k + 1, s =>
    match step s with
    | .next t => t.observe :: stepObservations k t
    | .fault _ => []
    | .refused _ => []

/-- Of the observations after steps, those after the steps that apply an operation. -/
def operationObservations : List (Option Instr) → List Observation → List Observation
  | some _ :: acts, o :: os => o :: operationObservations acts os
  | none :: acts, _ :: os => operationObservations acts os
  | _, _ => []

/-- Two states that differ at most in what no operation reveals: `latched` while `ready` is 0, and `txByte` while
`txCnt` is 0 (93_implementation_defined.md U10). -/
def State.agreeButHidden (s t : State) : Prop :=
  ∃ l x, t = { s with latched := l, txByte := x } ∧
    (s.ready = true → l = s.latched) ∧ (s.txCnt ≠ 0#4 → x = s.txByte)

end Sys2Proof.Machine
end

