-- ==== Sys2Proof/Certificates/Slice0/Obligations.lean ====
section
/-! DEFINITION. The statements for the provers. -/

open Sys2Proof Sys2Proof.Machine

/-! ### Encodings -/

/-- Words written out bit by bit from 30_encoding.md R82, R85 and R88, and from the table of 95_test_vectors.md 2.5. -/
def Obligations.SpelledOutWordsDecode : Prop :=
  decodeTableWord 16 0b0000000000 = some .nop ∧
  decodeTableWord 16 0b0011111111 = some .nop ∧
  decodeTableWord 16 0b0100000000 = some (.arm 0x00#8) ∧
  decodeTableWord 16 0b0110100101 = some (.arm 0xA5#8) ∧
  decodeTableWord 16 0b0111111111 = some (.arm 0xFF#8) ∧
  decodeTableWord 16 0b1000000000 = some .take ∧
  decodeTableWord 16 0b1000111100 = some .take ∧
  decodeTableWord 16 0b1100000000 = some .reserved ∧
  decodeTableWord 16 0b1111111111 = some .reserved ∧
  decodeTableWord 8 0b0 = some (.edge false) ∧
  decodeTableWord 8 0b1 = some (.edge true) ∧
  decodeTableWord 0 0 = some .init

/-- 30_encoding.md R81 and R82: the layout of the command word, the map from `op` to operation, and that exactly one
row of the opcode map selects each of the 1024 words. -/
def Obligations.CommandWordSelectsItsRow : Prop :=
  ∀ cw : CommandWord,
    cw.toNat = (commandOp cw).toNat * 0x100 + (commandData cw).toNat ∧
    (commandOp cw = 0b00#2 → decodePort (.command cw) = .nop) ∧
    (commandOp cw = 0b01#2 → decodePort (.command cw) = .arm (commandData cw)) ∧
    (commandOp cw = 0b10#2 → decodePort (.command cw) = .take) ∧
    (commandOp cw = 0b11#2 → decodePort (.command cw) = .reserved) ∧
    ∃ r ∈ commandTable, cw &&& r.mask = r.matchBits ∧ r.mnemonic = (decodePort (.command cw)).mnemonic ∧
      ∀ r' ∈ commandTable, cw &&& r'.mask = r'.matchBits → r' = r

/-- Every operation, with every operand, is read back from its encoding, at its port and in its container. -/
def Obligations.DecodeOfEncodeIsTheOperation : Prop :=
  ∀ i : Instr,
    decodePort (encode i) = i ∧ decodeTableWord (encode i).containerBits (encode i).value = some i

/-- 30_encoding.md R83: bits 7 to 0 select nothing unless the operation is `ARM`, which reads them all. -/
def Obligations.IgnoredBitsSelectNothing : Prop :=
  (∀ cw cw' : CommandWord, commandOp cw = commandOp cw' → commandOp cw ≠ 0b01#2 →
    decodeCommand cw = decodeCommand cw' ∧ ∀ s, exec (decodeCommand cw) s = exec (decodeCommand cw') s) ∧
  (∀ cw cw' : CommandWord, commandOp cw = 0b01#2 → commandOp cw' = 0b01#2 →
    decodeCommand cw = decodeCommand cw' → cw = cw') ∧
  encode .nop = .command 0x000#10 ∧ encode .take = .command 0x200#10 ∧ encode .reserved = .command 0x300#10

/-- 30_encoding.md R84 and 00_scope.md R11: the response word of every host operation, and what it says. -/
def Obligations.ResponseWordSaysSomeOrNone : Prop :=
  (∀ r, readResponse (responseWord r) = r) ∧
  responseWord none = 0x000#9 ∧
  (∀ b : Byte, (responseWord (some b)).toNat = 0x100 + b.toNat) ∧
  (∀ i s t, exec i s = .next t → (t.response.isSome = true ↔ i.agent = .host)) ∧
  (∀ i s t rw, exec i s = .next t → t.response = some rw →
    (rw.getLsbD 8 = true ↔ i = .take ∧ s.ready = true) ∧
    (rw.getLsbD 8 = true → rw.extractLsb' 0 8 = s.latched) ∧
    (rw.getLsbD 8 = false → rw = 0x000#9))

/-- The model's choice, log entry 11: bits that a port does not have are no part of an operation's word. -/
def Obligations.BitsNoPortHasAreRejected : Prop :=
  (∀ w, 1024 ≤ w → decodeTableWord 16 w = none) ∧
  (∀ w, 2 ≤ w → decodeTableWord 8 w = none) ∧
  (∀ w, w ≠ 0 → decodeTableWord 0 w = none) ∧
  (∀ n w, 16 < n → decodeTableWord n w = none)

/-- The serial frame of 30_encoding.md section 2: eight bits and a byte are the same thing, bit 7 first. -/
def Obligations.SerialFrameIsMsbFirst : Prop :=
  (∀ b : Byte, frameByte (frameBits b) = b) ∧
  (∀ i1 i2 i3 i4 i5 i6 i7 i8 : Level,
    frameBits (frameByte [i1, i2, i3, i4, i5, i6, i7, i8]) = [i1, i2, i3, i4, i5, i6, i7, i8] ∧
    (frameByte [i1, i2, i3, i4, i5, i6, i7, i8]).toNat =
      i1.toNat * 128 + i2.toNat * 64 + i3.toNat * 32 + i4.toNat * 16 + i5.toNat * 8 + i6.toNat * 4 +
        i7.toNat * 2 + i8.toNat)

/-! ### The effect of each operation, and where it completes -/

/-- 42_system.md R138. -/
def Obligations.NopAnswersNoneAndLeavesTheState : Prop :=
  (∀ cw : CommandWord, commandOp cw = 0b00#2 → decodePort (.command cw) = .nop) ∧
  encode .nop = .command 0x000#10 ∧
  ∀ s : State, s.lifecycle = .running → exec .nop s = .next { s with response := some 0x000#9 }

/-- The model's choice, log entry 8: the reserved code completes as `NOP`. The spec lets a model do this or refuse it
(42_system.md R139, 93_implementation_defined.md U2); what is stated is what R139 says the hardware does. -/
def Obligations.ReservedCodeActsAsNop : Prop :=
  (∀ cw : CommandWord, cw &&& 0x300#10 = 0x300#10 → decodePort (.command cw) = .reserved) ∧
  ∀ s : State, s.lifecycle = .running →
    exec .reserved s = .next { s with response := some 0x000#9 } ∧ exec .reserved s = exec .nop s

/-- The pseudocode of `ARM` (41_byte_exchange.md section 2): `pending` is written, all else is left. -/
def Obligations.ArmOverwritesPending : Prop :=
  ∀ (b : Byte) (s : State), s.lifecycle = .running →
    exec (.arm b) s = .next { s with pending := b, response := some 0x000#9 }

/-- The pseudocode of `TAKE` (41_byte_exchange.md section 3), both branches; `latched` is left. -/
def Obligations.TakeReadsAndClearsReady : Prop :=
  ∀ s : State, s.lifecycle = .running →
    (s.ready = true → exec .take s = .next { s with ready := false, response := some (0x100#9 + s.latched.setWidth 9) }) ∧
    (s.ready = false → exec .take s = .next { s with response := some 0x000#9 })

/-- The pseudocode of `EDGE` (40_link_engine.md section 1) when the edge is not the eighth of its cycle. -/
def Obligations.EdgeInsideACycle : Prop :=
  ∀ (b : Level) (s : State), s.lifecycle = .running → s.Lawful → s.rxCnt ≠ 7#4 →
    exec (.edge b) s = .next
      { s with
        rxAcc := (s.rxAcc <<< 1) ||| (BitVec.ofBool b).setWidth 8
        rxCnt := s.rxCnt + 1#4
        txByte := if s.txCnt = 0#4 then s.pending else s.txByte
        txCnt := s.txCnt + 1#4
        sout := (if s.txCnt = 0#4 then s.pending else s.txByte).getLsbD (7 - s.txCnt.toNat)
        response := none }

/-- The pseudocode of `EDGE` (40_link_engine.md section 1) when the edge is the eighth of its cycle. -/
def Obligations.EdgeAtTheByteBoundary : Prop :=
  ∀ (b : Level) (s : State), s.lifecycle = .running → s.Lawful → s.rxCnt = 7#4 →
    exec (.edge b) s = .next
      { s with
        latched := (s.rxAcc <<< 1) ||| (BitVec.ofBool b).setWidth 8
        ready := true
        rxAcc := 0x00#8
        rxCnt := 0#4
        txByte := 0x00#8
        txCnt := 0#4
        sout := s.txByte.getLsbD 0
        response := none }

/-- The pseudocode of `INIT` (42_system.md section 1), where it is an operation: in a block that has had none. -/
def Obligations.InitSetsEveryField : Prop :=
  ∀ s : State, s.lifecycle = .beforeInit →
    exec .init s = .next
      { s with
        rxAcc := 0x00#8
        rxCnt := 0#4
        txByte := 0x00#8
        txCnt := 0#4
        latched := 0x00#8
        ready := false
        pending := 0x00#8
        sout := Config.soutReset
        lifecycle := .running
        response := none }

/-! ### Reset, and the time before it -/

/-- 10_state.md R40: the state after `INIT`, and that the engine responds to edges from then on. -/
def Obligations.StateAfterInit : Prop :=
  State.reset.rxAcc = 0x00#8 ∧ State.reset.rxCnt = 0#4 ∧ State.reset.txByte = 0x00#8 ∧ State.reset.txCnt = 0#4 ∧
  State.reset.ready = false ∧ State.reset.latched = 0x00#8 ∧ State.reset.pending = 0x00#8 ∧
  State.reset.sout = Config.soutReset ∧
  (∀ s t : State, exec .init s = .next t → t.block = State.reset.block) ∧
  ∀ b, ∃ t, exec (.edge b) State.reset = .next t

/-- 42_system.md R136: a run that completes has `INIT` first and nowhere else; a second one is refused. -/
def Obligations.InitIsFirstAndOnlyOnce : Prop :=
  (∀ s : State, s.lifecycle = .running → exec .init s = .refused .secondInit) ∧
  ∀ ops s t, s.lifecycle = .beforeInit → ops ≠ [] → runOps ops s = .next t →
    ∃ rest, ops = .init :: rest ∧ Instr.init ∉ rest

/-- Before `INIT` no agent has a step (42_system.md R137, 93_implementation_defined.md U13; log entry 3). -/
def Obligations.NothingActsBeforeInit : Prop :=
  (∀ i (s : State), s.lifecycle = .beforeInit → i ≠ .init → exec i s = .fault .stuckBeforeInit) ∧
  (∀ (s : State) rest, s.lifecycle = .beforeInit → s.arrivals = .rise :: rest → step s = .fault .stuckBeforeInit)

/-- States outside the invariants have no meaning for the engine (10_state.md R36, 93_implementation_defined.md U12;
log entry 9). -/
def Obligations.EdgeOutsideTheInvariantsIsRefused : Prop :=
  ∀ (b : Level) (s : State), s.lifecycle = .running →
    (s.rxCnt ≠ s.txCnt ∨ 8 ≤ s.rxCnt.toNat ∨ 2 ^ s.rxCnt.toNat ≤ s.rxAcc.toNat) →
    exec (.edge b) s = .refused .outsideInvariants

/-! ### The step -/

/-- A step takes the first thing presented, decodes it and applies exactly that operation. That words are presented in
a list is the model's choice, log entry 2; that placing `INIT` takes the machine to where a run begins is the model's
choice, log entry 4. For a coincidence see CoincidenceIsOneOfTwoOrders. -/
def Obligations.StepRunsTheDecodedOperation : Prop :=
  (∀ (s : State) pw rest, s.arrivals = arrivalOf pw :: rest →
    step s = exec (decodePort pw) { s with arrivals := rest }) ∧
  (∀ (s : State) nbits w i, decodeTableWord nbits w = some i → i ≠ .init →
    step (s.withFetchWord nbits w) = exec i s) ∧
  (∀ (s : State) nbits w, decodeTableWord nbits w = some .init →
    step (s.withFetchWord nbits w) = exec .init { s with lifecycle := .beforeInit })

/-- With nothing presented the host port carries the idle code (10_state.md R39; log entry 2). -/
def Obligations.IdleStepIsNop : Prop :=
  ∀ s : State, s.arrivals = [] → step s = exec .nop s

/-- Rising transitions of SCK do nothing (60_exceptions.md R155). -/
def Obligations.RisingTransitionDoesNothing : Prop :=
  ∀ (s : State) rest, s.lifecycle = .running → s.arrivals = .rise :: rest →
    step s = .next { s with arrivals := rest, response := none }

/-- 20_memory.md R65: a coincidence is one of the two orders, whichever the open parameter gives: one step applies the
operation drawn first, whole, with its answer, and leaves the other one presented next, and the step after that applies
it. The two orders differ only in the two cases the rule names, and no setting of `ready` is lost. -/
def Obligations.CoincidenceIsOneOfTwoOrders : Prop :=
  (∀ (s : State) cw b rest, s.arrivals = .coincident cw b :: rest →
    step s =
      (if Config.hostFirst s.coincidences then
        exec (decodeCommand cw) { s with arrivals := .fall b :: rest, coincidences := s.coincidences + 1 }
      else exec (.edge b) { s with arrivals := .command cw :: rest, coincidences := s.coincidences + 1 }) ∧
    runSteps 2 s =
      runOps (if Config.hostFirst s.coincidences then [decodeCommand cw, .edge b] else [.edge b, decodeCommand cw])
        { s with arrivals := rest, coincidences := s.coincidences + 1 }) ∧
  (∀ (s : State) h b, s.lifecycle = .running → s.Lawful → h.agent = .host →
    ¬ (h = .take ∧ s.rxCnt = 7#4) → ¬ ((∃ x, h = .arm x) ∧ s.txCnt = 0#4) →
    ∃ t u, runOps [h, .edge b] s = .next t ∧ runOps [.edge b, h] s = .next u ∧ t.block = u.block ∧
      hostAnswers [h, .edge b] s = hostAnswers [.edge b, h] s) ∧
  (∀ (s : State) b, s.lifecycle = .running → s.Lawful → s.rxCnt = 7#4 →
    (∃ t, runOps [.take, .edge b] s = .next t ∧ t.ready = true ∧ t.latched = shiftIn s.rxAcc b ∧
      hostAnswers [.take, .edge b] s = [if s.ready then some s.latched else none]) ∧
    (∃ t, runOps [.edge b, .take] s = .next t ∧ t.ready = false ∧
      hostAnswers [.edge b, .take] s = [some (shiftIn s.rxAcc b)])) ∧
  (∀ (s : State) x b, s.lifecycle = .running → s.Lawful → s.txCnt = 0#4 →
    (∃ t, runOps [.arm x, .edge b] s = .next t ∧ t.txByte = x ∧ t.pending = x) ∧
    (∃ t, runOps [.edge b, .arm x] s = .next t ∧ t.txByte = s.pending ∧ t.pending = x))

/-- Steps over presented operations are the run of those operations, whatever is presented after them. -/
def Obligations.StepsRunThePresentedOperations : Prop :=
  ∀ (ops : List Instr) (s : State) (rest : List Arrival),
    runSteps ops.length { s with arrivals := ops.map (fun i => arrivalOf (encode i)) ++ rest } =
      runOps ops { s with arrivals := rest }

/-- 20_memory.md R62: whatever the outside presents, what happens is one total order of atomic operations, in which each
agent's operations keep their order: the steps leave what applying them one by one leaves, and all that the outside
observes after each of them (the level of SOUT, the answer, `rx_ready`; 00_scope.md R8) is what it observes there.
Every total order of operations is admitted. -/
def Obligations.EveryScheduleIsATotalOrder : Prop :=
  (∀ s : State, s.lifecycle = .running → s.Lawful → Arrival.rst ∉ s.arrivals →
    edgeInputs s.scheduledOps = linkBits s.arrivals ∧ hostOps s.scheduledOps = hostCommands s.arrivals ∧
    Instr.init ∉ s.scheduledOps ∧ s.scheduledActs.length = stepsFor s.arrivals ∧
    operationObservations s.scheduledActs (stepObservations (stepsFor s.arrivals) s) = observations s.scheduledOps s ∧
    ∃ t u : State, runSteps (stepsFor s.arrivals) s = .next t ∧ t.arrivals = [] ∧
      runOps s.scheduledOps s = .next u ∧ t.block = u.block) ∧
  (∀ (ops : List Instr) (s : State), s.lifecycle = .running → s.Lawful → Instr.init ∉ ops →
    ∃ t, runOps ops { s with arrivals := [] } = .next t ∧
      runSteps ops.length { s with arrivals := ops.map (fun i => arrivalOf (encode i)) } = .next t ∧
      stepObservations ops.length { s with arrivals := ops.map (fun i => arrivalOf (encode i)) } =
        observations ops s)

/-! ### Invariants and completion of runs -/

/-- Every step keeps the invariant, from any state that meets it. -/
def Obligations.EveryStepKeepsTheInvariant : Prop :=
  ∀ s t : State, s.Inv → step s = .next t → t.Inv

/-- The state after reset meets the invariant. -/
def Obligations.ResetMeetsTheInvariant : Prop :=
  State.reset.Inv ∧ State.reset.lifecycle = .running

/-- Every operation can be applied in every state of a run, and none can end it (60_exceptions.md R150, R156). -/
def Obligations.EveryOperationAlwaysApplies : Prop :=
  ∀ (i : Instr) (s : State), s.lifecycle = .running → s.Lawful → i ≠ .init →
    ∃ t, exec i s = .next t ∧ t.lifecycle = .running ∧ t.Lawful

/-- 00_scope.md R7: `INIT` and then any interleaving of operations is a run, of any length. -/
def Obligations.EveryInterleavingIsARun : Prop :=
  ∀ (ops : List Instr) (s : State), s.lifecycle = .beforeInit → Instr.init ∉ ops →
    ∃ t, runOps (.init :: ops) s = .next t ∧ ∀ i, i ≠ .init → ∃ u, exec i t = .next u

/-- 10_state.md R36, all five clauses, of every state that a run reaches after `INIT`. -/
def Obligations.ReachableStatesMeetTheFiveInvariants : Prop :=
  ∀ (ops : List Instr) (t : State), Instr.init ∉ ops → runOps ops State.reset = .next t →
    t.rxCnt = t.txCnt ∧
    t.rxCnt.toNat ≤ 7 ∧
    t.rxAcc.toNat < 2 ^ t.rxCnt.toNat ∧
    (t.txCnt = 0#4 → t.txByte = 0x00#8) ∧
    (t.txCnt ≠ 0#4 → ∃ pre b post u, ops = pre ++ .edge b :: post ∧ runOps pre State.reset = .next u ∧
      edgeCount pre % 8 = 0 ∧ 1 + edgeCount post = t.txCnt.toNat ∧ t.txByte = u.pending) ∧
    t.rxCnt.toNat = edgeCount ops % 8

/-! ### Frames and ownership -/

/-- The foreground's row of 60_exceptions.md R165: what a host operation leaves, and all that it can change. -/
def Obligations.HostOperationsLeaveTheEngineAlone : Prop :=
  ∀ (i : Instr) (s t : State), i.agent = .host → exec i s = .next t →
    t.rxAcc = s.rxAcc ∧ t.rxCnt = s.rxCnt ∧ t.txByte = s.txByte ∧ t.txCnt = s.txCnt ∧ t.sout = s.sout ∧
    t.latched = s.latched ∧ t.lifecycle = s.lifecycle ∧ t.arrivals = s.arrivals ∧ t.coincidences = s.coincidences ∧
    (t.ready ≠ s.ready → i = .take ∧ s.ready = true ∧ t.ready = false) ∧
    (t.pending ≠ s.pending → i = .arm t.pending)

/-- The edge handler's row of 60_exceptions.md R165: it never writes `pending` and never clears `ready`, and it touches
the receive mailbox only at a byte boundary. -/
def Obligations.EdgeLeavesTheHostsSideAlone : Prop :=
  ∀ (b : Level) (s t : State), exec (.edge b) s = .next t →
    t.pending = s.pending ∧ t.lifecycle = s.lifecycle ∧ t.arrivals = s.arrivals ∧ t.coincidences = s.coincidences ∧
    (s.ready = true → t.ready = true) ∧
    (s.rxCnt ≠ 7#4 → t.ready = s.ready ∧ t.latched = s.latched)

/-- 10_state.md R29: what sets, clears, shows and reads the flag. -/
def Obligations.ReadyFlagRule : Prop :=
  (∀ s : State, s.observe.rxReady = s.ready) ∧
  ∀ (i : Instr) (s t : State), exec i s = .next t →
    (t.ready = true ↔ ((∃ b, i = .edge b) ∧ s.rxCnt = 7#4) ∨ (s.ready = true ∧ i ≠ .take ∧ i ≠ .init)) ∧
    (∀ b, i = .edge b → s.rxCnt = 7#4 → t.latched = shiftIn s.rxAcc b) ∧
    (i ≠ .init → ¬ ((∃ b, i = .edge b) ∧ s.rxCnt = 7#4) → t.latched = s.latched) ∧
    (i ≠ .take → ∀ r, ∃ r', exec i { s with ready := r } = .next { t with ready := r' })

/-- 10_state.md R26: the two counters move together and only with `EDGE` and `INIT`. -/
def Obligations.CountersMoveInLockStep : Prop :=
  State.reset.rxCnt = State.reset.txCnt ∧
  ∀ (i : Instr) (s t : State), s.rxCnt = s.txCnt → exec i s = .next t →
    t.rxCnt = t.txCnt ∧
    (∀ b, i = .edge b → s.rxCnt.toNat < 7 →
      t.rxCnt.toNat = s.rxCnt.toNat + 1 ∧ t.txCnt.toNat = s.txCnt.toNat + 1) ∧
    (∀ b, i = .edge b → s.rxCnt = 7#4 → t.rxCnt = 0#4 ∧ t.txCnt = 0#4) ∧
    (i.agent = .host → t.rxCnt = s.rxCnt ∧ t.txCnt = s.txCnt)

/-- 40_link_engine.md R103 and R104: where the output bit of an edge comes from, and how long the pin holds it. -/
def Obligations.OutputBitComesFromTheLoadedByte : Prop :=
  (∀ (b : Level) (s t : State), exec (.edge b) s = .next t →
    (s.txCnt = 0#4 → t.sout = s.pending.getLsbD 7 ∧ t.txByte = s.pending) ∧
    (s.txCnt ≠ 0#4 → t.sout = s.txByte.getLsbD (7 - s.txCnt.toNat) ∧ (s.rxCnt ≠ 7#4 → t.txByte = s.txByte))) ∧
  (∀ (i : Instr) (s t : State), i.agent = .host → exec i s = .next t → t.sout = s.sout)

/-- 40_link_engine.md R102: the shift, the count, and that nothing is truncated. -/
def Obligations.ReceiveShiftLosesNothing : Prop :=
  ∀ (b : Level) (s t : State), exec (.edge b) s = .next t →
    (s.rxCnt ≠ 7#4 → t.rxAcc = (s.rxAcc <<< 1) ||| (BitVec.ofBool b).setWidth 8 ∧
      t.rxAcc.toNat = 2 * s.rxAcc.toNat + b.toNat ∧ t.rxCnt.toNat = s.rxCnt.toNat + 1) ∧
    (s.rxCnt = 7#4 → t.latched = (s.rxAcc <<< 1) ||| (BitVec.ofBool b).setWidth 8 ∧
      t.latched.toNat = 2 * s.rxAcc.toNat + b.toNat)

/-- 10_state.md R30: only `EDGE` and `INIT` drive SOUT; between cycles the pin shows bit 0 of the byte just sent,
until the first edge of the next cycle drives bit 7 of its byte; and before the first cycle the open level. -/
def Obligations.SoutHoldsBetweenEdges : Prop :=
  (∀ (ops : List Instr) (s t : State), edgeCount ops = 0 → Instr.init ∉ ops → runOps ops s = .next t →
    t.sout = s.sout) ∧
  (∀ (b : Level) (s t : State), s.rxCnt = 7#4 → exec (.edge b) s = .next t →
    t.sout = s.txByte.getLsbD 0 ∧ t.txByte = 0x00#8) ∧
  (∀ (b : Level) (s t : State), s.txCnt = 0#4 → exec (.edge b) s = .next t → t.sout = s.pending.getLsbD 7) ∧
  (∀ (ops : List Instr) (t : State), edgeCount ops = 0 → Instr.init ∉ ops → runOps ops State.reset = .next t →
    t.sout = Config.soutReset)

/-- A stalled cycle stays parked: without edges the engine keeps its partial state, the host operations go on, and once
the waiting byte is taken every `TAKE` answers `none` (60_exceptions.md R153). -/
def Obligations.StalledCycleStaysParked : Prop :=
  ∀ (ops : List Instr) (s : State), s.lifecycle = .running → edgeCount ops = 0 → Instr.init ∉ ops →
    ∃ t, runOps ops s = .next t ∧
      t.rxAcc = s.rxAcc ∧ t.rxCnt = s.rxCnt ∧ t.txByte = s.txByte ∧ t.txCnt = s.txCnt ∧ t.sout = s.sout ∧
      t.latched = s.latched ∧ t.pending = lastArmed ops s.pending ∧
      receivedBytes ops s = (if s.ready = true ∧ .take ∈ ops then [s.latched] else [])

/-! ### Whole cycles -/

/-- 10_state.md R21: at rest the receive register holds the bits sampled since the last byte boundary, oldest first. -/
def Obligations.PartialByteHoldsTheSampledBits : Prop :=
  ∀ (ops : List Instr) (t : State), Instr.init ∉ ops → runOps ops State.reset = .next t →
    t.rxCnt.toNat = (cutFrames [] (edgeInputs ops)).2.length ∧
    t.rxAcc = frameByte (cutFrames [] (edgeInputs ops)).2 ∧
    ∀ k, t.rxAcc.getLsbD k = (cutFrames [] (edgeInputs ops)).2.reverse.getD k false

/-- Byte alignment is positional (20_memory.md R56): the latched byte is the last whole group of eight edges since
`INIT`, and that byte, whole, is what a `TAKE` that answers `some` returns (20_memory.md R63). -/
def Obligations.LatchedByteIsTheLastWholeFrame : Prop :=
  ∀ (ops : List Instr) (t : State), Instr.init ∉ ops → runOps ops State.reset = .next t →
    t.latched = (cutFrames [] (edgeInputs ops)).1.getLastD 0x00#8 ∧
    (t.ready = true → ∃ u b, exec .take t = .next u ∧ (cutFrames [] (edgeInputs ops)).1.getLast? = some b ∧
      u.response = some (responseWord (some b)))

/-- 40_link_engine.md R110 and 30_encoding.md R86: eight edges from phase 0 latch the byte they carry, whatever the host
does meanwhile. -/
def Obligations.CycleLatchesTheByteClockedIn : Prop :=
  ∀ (ops : List Instr) (i1 i2 i3 i4 i5 i6 i7 i8 : Level) (s : State),
    s.lifecycle = .running → s.Lawful → s.rxCnt = 0#4 → Instr.init ∉ ops →
    edgeInputs ops = [i1, i2, i3, i4, i5, i6, i7] →
    ∃ t, runOps (ops ++ [.edge i8]) s = .next t ∧ t.ready = true ∧
      t.latched.toNat = i1.toNat * 128 + i2.toNat * 64 + i3.toNat * 32 + i4.toNat * 16 + i5.toNat * 8 +
        i6.toNat * 4 + i7.toNat * 2 + i8.toNat

/-- 30_encoding.md R87: the eight edges of a cycle drive the byte that was in `pending` at the first of them, bit 7
first, whatever the host does meanwhile and whatever is clocked in. -/
def Obligations.CycleDrivesTheByteLoadedAtItsFirstEdge : Prop :=
  ∀ (b : Level) (ops : List Instr) (s : State),
    s.lifecycle = .running → s.Lawful → s.txCnt = 0#4 → Instr.init ∉ ops → edgeCount ops = 7 →
    drivenLevels (.edge b :: ops) s =
      [s.pending.getLsbD 7, s.pending.getLsbD 6, s.pending.getLsbD 5, s.pending.getLsbD 4,
       s.pending.getLsbD 3, s.pending.getLsbD 2, s.pending.getLsbD 1, s.pending.getLsbD 0]

/-- 20_memory.md R64: the last `ARM` before a cycle's first edge gives all eight bits of the cycle, and one after that
edge gives the next cycle's; with no `ARM` between them both cycles send the same byte. -/
def Obligations.ArmTakesEffectAtTheNextCycleStart : Prop :=
  ∀ (before during after : List Instr) (b c : Level) (s : State),
    s.lifecycle = .running → s.Lawful → s.txCnt = 0#4 →
    Instr.init ∉ before ++ during ++ after → edgeCount before = 0 → edgeCount during = 7 → edgeCount after = 7 →
    drivenLevels (before ++ .edge b :: during ++ .edge c :: after) s =
      frameBits (lastArmed before s.pending) ++ frameBits (lastArmed (before ++ during) s.pending)

/-- No input bit affects any output bit (40_link_engine.md section 5). -/
def Obligations.OutputsDoNotDependOnInputs : Prop :=
  ∀ (ops ops' : List Instr) (s : State),
    List.Forall₂ (fun i j => i = j ∨ (sampleOf i).isSome = true ∧ (sampleOf j).isSome = true) ops ops' →
    drivenLevels ops s = drivenLevels ops' s

/-- What is armed affects no received byte (40_link_engine.md section 5). -/
def Obligations.ReceivedBytesDoNotDependOnArms : Prop :=
  ∀ (ops ops' : List Instr) (s : State) (p : Byte),
    List.Forall₂ (fun i j => i = j ∨ ∃ x y, i = .arm x ∧ j = .arm y) ops ops' →
    hostAnswers ops s = hostAnswers ops' { s with pending := p }

/-- 60_exceptions.md R152: of two bytes completed without a `TAKE` between, the host gets the second alone, once. -/
def Obligations.OverwriteKeepsTheSecondByteOnly : Prop :=
  ∀ (ops : List Instr) (first second : Byte) (s : State),
    s.lifecycle = .running → s.Lawful → s.rxCnt = 0#4 → Instr.init ∉ ops → Instr.take ∉ ops →
    edgeInputs ops = frameBits first ++ frameBits second →
    ∃ t, runOps ops s = .next t ∧ t.ready = true ∧ receivedBytes (ops ++ [.take, .take]) s = [second]

/-- A host that takes after every byte receives every byte, in order, whatever else it does (00_scope.md R14: edges in
aligned groups of eight, and a `TAKE` before the next boundary, are the premises). -/
def Obligations.PromptHostReceivesEveryByte : Prop :=
  ∀ (cycles : List (List Instr)) (s : State),
    s.lifecycle = .running → s.Lawful → s.rxCnt = 0#4 → s.ready = false →
    (∀ c ∈ cycles, Instr.init ∉ c ∧ edgeCount c = 8) →
    receivedBytes (cycles.flatMap (fun c => c ++ [.take])) s = cycles.map (fun c => frameByte (edgeInputs c))

/-! ### The host's side -/

/-- A second `TAKE` with no byte boundary between answers `none` and changes nothing, whatever stands between them short
of the edge that completes the byte (41_byte_exchange.md section 3, corner case (b)); in particular an immediate second
`TAKE` does (20_memory.md R59). -/
def Obligations.SecondTakeAnswersNone : Prop :=
  (∀ s t : State, exec .take s = .next t → exec .take t = .next { t with response := some 0x000#9 }) ∧
  ∀ (between : List Instr) (s : State), s.lifecycle = .running → s.Lawful → Instr.init ∉ between →
    s.rxCnt.toNat + edgeCount between < 8 →
    ∃ t, runOps (.take :: between) s = .next t ∧ exec .take t = .next { t with response := some 0x000#9 }

/-- Arming the same byte again, with no `ARM` of another value between, leaves the same block (20_memory.md R59). -/
def Obligations.ArmIsIdempotent : Prop :=
  ∀ (b : Byte) (ops : List Instr) (s t : State), Instr.init ∉ ops → (∀ x, Instr.arm x ∈ ops → x = b) →
    runOps (.arm b :: ops) s = .next t → ∃ u, runOps (.arm b :: ops ++ [.arm b]) s = .next u ∧ u.block = t.block

/-- 41_byte_exchange.md R127: the line equals the flag, rises at a byte boundary, stays high until a `TAKE`, and a host
that waits for it and then takes receives a byte. -/
def Obligations.ReadyWaitsForTheTake : Prop :=
  (∀ s : State, s.rxReady = s.ready) ∧
  (∀ (b : Level) (s t : State), s.rxCnt = 7#4 → exec (.edge b) s = .next t → t.rxReady = true) ∧
  (∀ s t : State, exec .take s = .next t → t.rxReady = false) ∧
  (∀ (ops : List Instr) (s : State), s.lifecycle = .running → s.Lawful → s.rxReady = true →
    Instr.take ∉ ops → Instr.init ∉ ops →
    ∃ t u, runOps ops s = .next t ∧ t.rxReady = true ∧ exec .take t = .next u ∧
      u.response = some (responseWord (some t.latched)))

/-- 41_byte_exchange.md R122: a `TAKE` that answers `none` carries 0x00, and while `ready` is 0 nothing the host can do
tells two contents of `latched` apart. -/
def Obligations.EmptyTakeRevealsNoByte : Prop :=
  ∀ s : State, s.lifecycle = .running → s.ready = false →
    (∃ t, exec .take s = .next t ∧ t.response = some 0x000#9) ∧
    ∀ (ops : List Instr) (x : Byte), (∀ i ∈ ops, i.agent = .host) →
      hostAnswers ops { s with latched := x } = hostAnswers ops s

/-- The host cannot read the phase, the partial byte, the byte in flight, the level of SOUT or `pending`
(10_state.md R34, 90_conflicts.md C5). -/
def Obligations.HostCannotSeeTheEngine : Prop :=
  ∀ (ops : List Instr) (s : State) (acc txb p : Byte) (rc tc : Count) (o : Level),
    (∀ i ∈ ops, i.agent = .host) →
    hostAnswers ops { s with rxAcc := acc, rxCnt := rc, txByte := txb, txCnt := tc, pending := p, sout := o } =
      hostAnswers ops s

/-- Nothing any run lets the outside observe depends on `latched` while `ready` is 0, nor on `txByte` while `txCnt` is
0 (93_implementation_defined.md U10). -/
def Obligations.HiddenResidueIsNeverObserved : Prop :=
  ∀ (ops : List Instr) (s t : State), s.agreeButHidden t → observations ops s = observations ops t
end

