-- ==== Sys2Proof/Laws/Decode.lean ====
section
/-! SUPPORT. The small lemmas of the decoder and the encoder. -/

namespace Sys2Proof

/-- A word that the mask of the opcode map turns into `m` has the top two bits of `m` as its `op` (30_encoding.md R81). -/
theorem commandOp_eq_of_masked {cw m : CommandWord} (h : cw &&& 0x300#10 = m) : commandOp cw = commandOp m := by
  subst h
  ext k hk
  interval_cases k <;> simp [commandOp]

/-- The encoding of `ARM` is selected by the row of `ARM`. -/
theorem encodedArm_masked (b : Byte) : (0x100#10 + b.setWidth 10) &&& 0x300#10 = 0x100#10 := by
  revert b
  decide

/-- The operand of `ARM` is read back from its encoding. -/
theorem commandData_encodedArm (b : Byte) : commandData (0x100#10 + b.setWidth 10) = b := by
  revert b
  decide

@[simp] theorem decodePort_link (i : Level) : decodePort (.link i) = .edge i := rfl
@[simp] theorem decodePort_reset : decodePort .reset = .init := rfl
@[simp] theorem decodePort_command (cw : CommandWord) : decodePort (.command cw) = decodeCommand cw := rfl

/-- Every command word is an operation of the host (30_encoding.md R89). -/
theorem decodeCommand_agent (cw : CommandWord) : (decodeCommand cw).agent = .host := by
  unfold decodeCommand
  repeat' split
  all_goals rfl

end Sys2Proof
end

