-- ==== Sys2Proof/Laws/State.lean ====
section
/-! SUPPORT. One lemma per field per named update of the state, so that no proof unfolds a record update. -/

namespace Sys2Proof.Machine

variable (s : State)

@[simp] theorem State.setReady_rxAcc : s.setReady.rxAcc = s.rxAcc := rfl
@[simp] theorem State.setReady_rxCnt : s.setReady.rxCnt = s.rxCnt := rfl
@[simp] theorem State.setReady_txByte : s.setReady.txByte = s.txByte := rfl
@[simp] theorem State.setReady_txCnt : s.setReady.txCnt = s.txCnt := rfl
@[simp] theorem State.setReady_latched : s.setReady.latched = s.latched := rfl
@[simp] theorem State.setReady_ready : s.setReady.ready = true := rfl
@[simp] theorem State.setReady_pending : s.setReady.pending = s.pending := rfl
@[simp] theorem State.setReady_sout : s.setReady.sout = s.sout := rfl
@[simp] theorem State.setReady_lifecycle : s.setReady.lifecycle = s.lifecycle := rfl
@[simp] theorem State.setReady_response : s.setReady.response = s.response := rfl
@[simp] theorem State.setReady_arrivals : s.setReady.arrivals = s.arrivals := rfl
@[simp] theorem State.setReady_coincidences : s.setReady.coincidences = s.coincidences := rfl

@[simp] theorem State.clearReady_rxAcc : s.clearReady.rxAcc = s.rxAcc := rfl
@[simp] theorem State.clearReady_rxCnt : s.clearReady.rxCnt = s.rxCnt := rfl
@[simp] theorem State.clearReady_txByte : s.clearReady.txByte = s.txByte := rfl
@[simp] theorem State.clearReady_txCnt : s.clearReady.txCnt = s.txCnt := rfl
@[simp] theorem State.clearReady_latched : s.clearReady.latched = s.latched := rfl
@[simp] theorem State.clearReady_ready : s.clearReady.ready = false := rfl
@[simp] theorem State.clearReady_pending : s.clearReady.pending = s.pending := rfl
@[simp] theorem State.clearReady_sout : s.clearReady.sout = s.sout := rfl
@[simp] theorem State.clearReady_lifecycle : s.clearReady.lifecycle = s.lifecycle := rfl
@[simp] theorem State.clearReady_response : s.clearReady.response = s.response := rfl
@[simp] theorem State.clearReady_arrivals : s.clearReady.arrivals = s.arrivals := rfl
@[simp] theorem State.clearReady_coincidences : s.clearReady.coincidences = s.coincidences := rfl

@[simp] theorem State.respond_rxAcc (r : Option Byte) : (s.respond r).rxAcc = s.rxAcc := rfl
@[simp] theorem State.respond_rxCnt (r : Option Byte) : (s.respond r).rxCnt = s.rxCnt := rfl
@[simp] theorem State.respond_txByte (r : Option Byte) : (s.respond r).txByte = s.txByte := rfl
@[simp] theorem State.respond_txCnt (r : Option Byte) : (s.respond r).txCnt = s.txCnt := rfl
@[simp] theorem State.respond_latched (r : Option Byte) : (s.respond r).latched = s.latched := rfl
@[simp] theorem State.respond_ready (r : Option Byte) : (s.respond r).ready = s.ready := rfl
@[simp] theorem State.respond_pending (r : Option Byte) : (s.respond r).pending = s.pending := rfl
@[simp] theorem State.respond_sout (r : Option Byte) : (s.respond r).sout = s.sout := rfl
@[simp] theorem State.respond_lifecycle (r : Option Byte) : (s.respond r).lifecycle = s.lifecycle := rfl
@[simp] theorem State.respond_response (r : Option Byte) : (s.respond r).response = some (responseWord r) := rfl
@[simp] theorem State.respond_arrivals (r : Option Byte) : (s.respond r).arrivals = s.arrivals := rfl
@[simp] theorem State.respond_coincidences (r : Option Byte) : (s.respond r).coincidences = s.coincidences := rfl

@[simp] theorem State.noResponse_rxAcc : s.noResponse.rxAcc = s.rxAcc := rfl
@[simp] theorem State.noResponse_rxCnt : s.noResponse.rxCnt = s.rxCnt := rfl
@[simp] theorem State.noResponse_txByte : s.noResponse.txByte = s.txByte := rfl
@[simp] theorem State.noResponse_txCnt : s.noResponse.txCnt = s.txCnt := rfl
@[simp] theorem State.noResponse_latched : s.noResponse.latched = s.latched := rfl
@[simp] theorem State.noResponse_ready : s.noResponse.ready = s.ready := rfl
@[simp] theorem State.noResponse_pending : s.noResponse.pending = s.pending := rfl
@[simp] theorem State.noResponse_sout : s.noResponse.sout = s.sout := rfl
@[simp] theorem State.noResponse_lifecycle : s.noResponse.lifecycle = s.lifecycle := rfl
@[simp] theorem State.noResponse_response : s.noResponse.response = none := rfl
@[simp] theorem State.noResponse_arrivals : s.noResponse.arrivals = s.arrivals := rfl
@[simp] theorem State.noResponse_coincidences : s.noResponse.coincidences = s.coincidences := rfl

@[simp] theorem State.drive_rxAcc (b : Level) : (s.drive b).rxAcc = s.rxAcc := rfl
@[simp] theorem State.drive_rxCnt (b : Level) : (s.drive b).rxCnt = s.rxCnt := rfl
@[simp] theorem State.drive_txByte (b : Level) : (s.drive b).txByte = s.txByte := rfl
@[simp] theorem State.drive_txCnt (b : Level) : (s.drive b).txCnt = s.txCnt := rfl
@[simp] theorem State.drive_latched (b : Level) : (s.drive b).latched = s.latched := rfl
@[simp] theorem State.drive_ready (b : Level) : (s.drive b).ready = s.ready := rfl
@[simp] theorem State.drive_pending (b : Level) : (s.drive b).pending = s.pending := rfl
@[simp] theorem State.drive_sout (b : Level) : (s.drive b).sout = b := rfl
@[simp] theorem State.drive_lifecycle (b : Level) : (s.drive b).lifecycle = s.lifecycle := rfl
@[simp] theorem State.drive_response (b : Level) : (s.drive b).response = s.response := rfl
@[simp] theorem State.drive_arrivals (b : Level) : (s.drive b).arrivals = s.arrivals := rfl
@[simp] theorem State.drive_coincidences (b : Level) : (s.drive b).coincidences = s.coincidences := rfl

@[simp] theorem State.armPending_rxAcc (b : Byte) : (s.armPending b).rxAcc = s.rxAcc := rfl
@[simp] theorem State.armPending_rxCnt (b : Byte) : (s.armPending b).rxCnt = s.rxCnt := rfl
@[simp] theorem State.armPending_txByte (b : Byte) : (s.armPending b).txByte = s.txByte := rfl
@[simp] theorem State.armPending_txCnt (b : Byte) : (s.armPending b).txCnt = s.txCnt := rfl
@[simp] theorem State.armPending_latched (b : Byte) : (s.armPending b).latched = s.latched := rfl
@[simp] theorem State.armPending_ready (b : Byte) : (s.armPending b).ready = s.ready := rfl
@[simp] theorem State.armPending_pending (b : Byte) : (s.armPending b).pending = b := rfl
@[simp] theorem State.armPending_sout (b : Byte) : (s.armPending b).sout = s.sout := rfl
@[simp] theorem State.armPending_lifecycle (b : Byte) : (s.armPending b).lifecycle = s.lifecycle := rfl
@[simp] theorem State.armPending_response (b : Byte) : (s.armPending b).response = s.response := rfl
@[simp] theorem State.armPending_arrivals (b : Byte) : (s.armPending b).arrivals = s.arrivals := rfl
@[simp] theorem State.armPending_coincidences (b : Byte) : (s.armPending b).coincidences = s.coincidences := rfl

@[simp] theorem State.latchByte_rxAcc (b : Byte) : (s.latchByte b).rxAcc = s.rxAcc := rfl
@[simp] theorem State.latchByte_rxCnt (b : Byte) : (s.latchByte b).rxCnt = s.rxCnt := rfl
@[simp] theorem State.latchByte_txByte (b : Byte) : (s.latchByte b).txByte = s.txByte := rfl
@[simp] theorem State.latchByte_txCnt (b : Byte) : (s.latchByte b).txCnt = s.txCnt := rfl
@[simp] theorem State.latchByte_latched (b : Byte) : (s.latchByte b).latched = b := rfl
@[simp] theorem State.latchByte_ready (b : Byte) : (s.latchByte b).ready = true := rfl
@[simp] theorem State.latchByte_pending (b : Byte) : (s.latchByte b).pending = s.pending := rfl
@[simp] theorem State.latchByte_sout (b : Byte) : (s.latchByte b).sout = s.sout := rfl
@[simp] theorem State.latchByte_lifecycle (b : Byte) : (s.latchByte b).lifecycle = s.lifecycle := rfl
@[simp] theorem State.latchByte_response (b : Byte) : (s.latchByte b).response = s.response := rfl
@[simp] theorem State.latchByte_arrivals (b : Byte) : (s.latchByte b).arrivals = s.arrivals := rfl
@[simp] theorem State.latchByte_coincidences (b : Byte) : (s.latchByte b).coincidences = s.coincidences := rfl

@[simp] theorem State.storeShift_rxAcc (a : Byte) (rc : Count) (x : Byte) (tc : Count) : (s.storeShift a rc x tc).rxAcc = a := rfl
@[simp] theorem State.storeShift_rxCnt (a : Byte) (rc : Count) (x : Byte) (tc : Count) : (s.storeShift a rc x tc).rxCnt = rc := rfl
@[simp] theorem State.storeShift_txByte (a : Byte) (rc : Count) (x : Byte) (tc : Count) : (s.storeShift a rc x tc).txByte = x := rfl
@[simp] theorem State.storeShift_txCnt (a : Byte) (rc : Count) (x : Byte) (tc : Count) : (s.storeShift a rc x tc).txCnt = tc := rfl
@[simp] theorem State.storeShift_latched (a : Byte) (rc : Count) (x : Byte) (tc : Count) : (s.storeShift a rc x tc).latched = s.latched := rfl
@[simp] theorem State.storeShift_ready (a : Byte) (rc : Count) (x : Byte) (tc : Count) : (s.storeShift a rc x tc).ready = s.ready := rfl
@[simp] theorem State.storeShift_pending (a : Byte) (rc : Count) (x : Byte) (tc : Count) : (s.storeShift a rc x tc).pending = s.pending := rfl
@[simp] theorem State.storeShift_sout (a : Byte) (rc : Count) (x : Byte) (tc : Count) : (s.storeShift a rc x tc).sout = s.sout := rfl
@[simp] theorem State.storeShift_lifecycle (a : Byte) (rc : Count) (x : Byte) (tc : Count) : (s.storeShift a rc x tc).lifecycle = s.lifecycle := rfl
@[simp] theorem State.storeShift_response (a : Byte) (rc : Count) (x : Byte) (tc : Count) : (s.storeShift a rc x tc).response = s.response := rfl
@[simp] theorem State.storeShift_arrivals (a : Byte) (rc : Count) (x : Byte) (tc : Count) : (s.storeShift a rc x tc).arrivals = s.arrivals := rfl
@[simp] theorem State.storeShift_coincidences (a : Byte) (rc : Count) (x : Byte) (tc : Count) : (s.storeShift a rc x tc).coincidences = s.coincidences := rfl

@[simp] theorem State.clearShift_rxAcc : s.clearShift.rxAcc = 0x00#8 := rfl
@[simp] theorem State.clearShift_rxCnt : s.clearShift.rxCnt = 0#4 := rfl
@[simp] theorem State.clearShift_txByte : s.clearShift.txByte = 0x00#8 := rfl
@[simp] theorem State.clearShift_txCnt : s.clearShift.txCnt = 0#4 := rfl
@[simp] theorem State.clearShift_latched : s.clearShift.latched = s.latched := rfl
@[simp] theorem State.clearShift_ready : s.clearShift.ready = s.ready := rfl
@[simp] theorem State.clearShift_pending : s.clearShift.pending = s.pending := rfl
@[simp] theorem State.clearShift_sout : s.clearShift.sout = s.sout := rfl
@[simp] theorem State.clearShift_lifecycle : s.clearShift.lifecycle = s.lifecycle := rfl
@[simp] theorem State.clearShift_response : s.clearShift.response = s.response := rfl
@[simp] theorem State.clearShift_arrivals : s.clearShift.arrivals = s.arrivals := rfl
@[simp] theorem State.clearShift_coincidences : s.clearShift.coincidences = s.coincidences := rfl

@[simp] theorem State.afterInit_rxAcc : s.afterInit.rxAcc = 0x00#8 := rfl
@[simp] theorem State.afterInit_rxCnt : s.afterInit.rxCnt = 0#4 := rfl
@[simp] theorem State.afterInit_txByte : s.afterInit.txByte = 0x00#8 := rfl
@[simp] theorem State.afterInit_txCnt : s.afterInit.txCnt = 0#4 := rfl
@[simp] theorem State.afterInit_latched : s.afterInit.latched = 0x00#8 := rfl
@[simp] theorem State.afterInit_ready : s.afterInit.ready = false := rfl
@[simp] theorem State.afterInit_pending : s.afterInit.pending = Config.pendingReset := rfl
@[simp] theorem State.afterInit_sout : s.afterInit.sout = Config.soutReset := rfl
@[simp] theorem State.afterInit_lifecycle : s.afterInit.lifecycle = .running := rfl
@[simp] theorem State.afterInit_response : s.afterInit.response = none := rfl
@[simp] theorem State.afterInit_arrivals : s.afterInit.arrivals = s.arrivals := rfl
@[simp] theorem State.afterInit_coincidences : s.afterInit.coincidences = s.coincidences := rfl

@[simp] theorem State.block_rxAcc : s.block.rxAcc = s.rxAcc := rfl
@[simp] theorem State.block_rxCnt : s.block.rxCnt = s.rxCnt := rfl
@[simp] theorem State.block_txByte : s.block.txByte = s.txByte := rfl
@[simp] theorem State.block_txCnt : s.block.txCnt = s.txCnt := rfl
@[simp] theorem State.block_latched : s.block.latched = s.latched := rfl
@[simp] theorem State.block_ready : s.block.ready = s.ready := rfl
@[simp] theorem State.block_pending : s.block.pending = s.pending := rfl
@[simp] theorem State.block_sout : s.block.sout = s.sout := rfl

@[simp] theorem State.rxReady_eq : s.rxReady = s.ready := rfl
@[simp] theorem State.observe_sout : s.observe.sout = s.sout := rfl
@[simp] theorem State.observe_response : s.observe.response = s.response := rfl
@[simp] theorem State.observe_rxReady : s.observe.rxReady = s.ready := rfl

/-- Two states hold the same block exactly when the eight fields agree. -/
theorem State.block_eq_iff (t : State) : s.block = t.block ↔
    s.rxAcc = t.rxAcc ∧ s.rxCnt = t.rxCnt ∧ s.txByte = t.txByte ∧ s.txCnt = t.txCnt ∧ s.latched = t.latched ∧
      s.ready = t.ready ∧ s.pending = t.pending ∧ s.sout = t.sout := by
  simp [State.block]

end Sys2Proof.Machine
end

