-- ==== Sys2Proof/Laws/Ops.lean ====
section
/-! SUPPORT. For each shared operation, once, everything it can do; and the inversion of each meaning. -/

namespace Sys2Proof.Machine

/-! ### Guards -/

/-- A guarded operation goes on only where `INIT` has been applied, and then to the given state. -/
theorem State.whenRunning_eq_next_iff {s t u : State} :
    s.whenRunning t = .next u ↔ s.lifecycle = .running ∧ u = t := by
  unfold State.whenRunning
  cases s.lifecycle <;> simp [eq_comm]

/-- The invariants (a), (b) and (c) of 10_state.md R36, one by one. -/
theorem State.lawful_iff (s : State) :
    s.Lawful ↔ s.rxCnt = s.txCnt ∧ s.rxCnt.toNat ≤ 7 ∧ s.rxAcc.toNat < 2 ^ s.rxCnt.toNat := by
  simp only [State.Lawful, State.lawful, Bool.and_eq_true, beq_iff_eq, decide_eq_true_eq, and_assoc]

/-- A lawful operation goes on only from a running state inside the invariants, and then to the given state. -/
theorem State.whenLawful_eq_next_iff {s t u : State} :
    s.whenLawful t = .next u ↔ s.lifecycle = .running ∧ s.Lawful ∧ u = t := by
  unfold State.whenLawful
  by_cases hr : s.lifecycle = .running
  · by_cases hl : s.Lawful
    · simp [hr, hl, State.whenRunning_eq_next_iff]
      exact fun _ => hl
    · simp [hr, hl]
  · simp [hr, State.whenRunning_eq_next_iff]

/-! ### The inversion of each meaning: when it answers a next state, and which -/

theorem exec_nop_eq_next_iff {s t : State} :
    exec .nop s = .next t ↔ s.lifecycle = .running ∧ t = s.respond none :=
  State.whenRunning_eq_next_iff

theorem exec_reserved_eq_next_iff {s t : State} :
    exec .reserved s = .next t ↔ s.lifecycle = .running ∧ t = s.respond none :=
  State.whenRunning_eq_next_iff

theorem exec_arm_eq_next_iff {b : Byte} {s t : State} :
    exec (.arm b) s = .next t ↔ s.lifecycle = .running ∧ t = (s.armPending b).respond none :=
  State.whenRunning_eq_next_iff

theorem exec_take_eq_next_iff {s t : State} :
    exec .take s = .next t ↔ s.lifecycle = .running ∧ t = s.takeLatched :=
  State.whenRunning_eq_next_iff

theorem exec_edge_eq_next_iff {b : Level} {s t : State} :
    exec (.edge b) s = .next t ↔ s.lifecycle = .running ∧ s.Lawful ∧ t = s.afterEdge b :=
  State.whenLawful_eq_next_iff

theorem exec_init_eq_next_iff {s t : State} :
    exec .init s = .next t ↔ s.lifecycle = .beforeInit ∧ t = s.afterInit := by
  unfold exec execInit
  cases s.lifecycle <;> simp [eq_comm]

/-! ### The receive mailbox -/

/-- Taking when a byte is ready. -/
theorem State.takeLatched_of_ready {s : State} (h : s.ready = true) :
    s.takeLatched = s.clearReady.respond (some s.latched) := by
  simp [State.takeLatched, h]

/-- Taking when none is. -/
theorem State.takeLatched_of_not_ready {s : State} (h : s.ready = false) : s.takeLatched = s.respond none := by
  simp [State.takeLatched, h]

/-- Taking leaves the flag clear, the latched byte as it was, and everything on the engine's side alone. -/
theorem State.takeLatched_spec (s : State) :
    s.takeLatched =
      { s with
        ready := false
        response := some (responseWord (if s.ready then some s.latched else none)) } := by
  obtain ⟨_, _, _, _, _, r, _, _, _, _, _, _⟩ := s
  cases r <;> rfl

/-! ### The shift registers -/

/-- The shift doubles the register and adds the sample, where bit 7 is clear (40_link_engine.md R108). -/
theorem shiftIn_toNat {acc : Byte} (h : acc.toNat < 128) (b : Level) :
    (shiftIn acc b).toNat = 2 * acc.toNat + b.toNat := by
  have hb : b.toNat < 2 := by cases b <;> decide
  have e : acc <<< 1 ||| (BitVec.ofBool b).setWidth 8 = acc <<< 1 + (BitVec.ofBool b).setWidth 8 := by
    refine (BitVec.add_eq_or_of_and_eq_zero _ _ ?_).symm
    ext k hk
    cases b <;> cases k <;> simp
  have hs : (acc <<< 1).toNat = 2 * acc.toNat := by
    rw [BitVec.toNat_shiftLeft, Nat.shiftLeft_eq]
    omega
  have hw : ((BitVec.ofBool b).setWidth 8).toNat = b.toNat := by cases b <;> rfl
  rw [shiftIn, e, BitVec.toNat_add, hs, hw]
  omega

/-- In a lawful state the receive register leaves bit 7 clear (10_state.md R36). -/
theorem State.Lawful.rxAcc_lt {s : State} (h : s.Lawful) : s.rxAcc.toNat < 128 :=
  have h' := s.lawful_iff.1 h
  lt_of_lt_of_le h'.2.2 (Nat.pow_le_pow_right (by decide) h'.2.1)

/-- An edge that is not the eighth of its cycle stores the shifted registers (40_link_engine.md R100). -/
theorem State.afterEdge_of_not_endsByte {s : State} (h : s.endsByte = false) (b : Level) :
    s.afterEdge b =
      (s.drive s.outBit).noResponse.storeShift (shiftIn s.rxAcc b) s.nextRxCnt s.cycleByte s.nextTxCnt := by
  simp [State.afterEdge, h]

/-- The eighth edge of a cycle latches the byte and clears the registers (40_link_engine.md R106). -/
theorem State.afterEdge_of_endsByte {s : State} (h : s.endsByte = true) (b : Level) :
    s.afterEdge b = ((s.drive s.outBit).noResponse.latchByte (shiftIn s.rxAcc b)).clearShift := by
  simp [State.afterEdge, h]

/-- The boundary test on the incremented count is the test for 7 on the count itself. -/
theorem State.endsByte_iff (s : State) : s.endsByte = true ↔ s.rxCnt = 7#4 := by
  have hall : ∀ n : Count, (n + 1#4 == 8#4) = true ↔ n = 7#4 := by decide
  exact hall s.rxCnt

@[simp] theorem State.afterEdge_sout (s : State) (b : Level) : (s.afterEdge b).sout = s.outBit := by
  unfold State.afterEdge; split <;> rfl
@[simp] theorem State.afterEdge_pending (s : State) (b : Level) : (s.afterEdge b).pending = s.pending := by
  unfold State.afterEdge; split <;> rfl
@[simp] theorem State.afterEdge_lifecycle (s : State) (b : Level) : (s.afterEdge b).lifecycle = s.lifecycle := by
  unfold State.afterEdge; split <;> rfl
@[simp] theorem State.afterEdge_response (s : State) (b : Level) : (s.afterEdge b).response = none := by
  unfold State.afterEdge; split <;> rfl
@[simp] theorem State.afterEdge_arrivals (s : State) (b : Level) : (s.afterEdge b).arrivals = s.arrivals := by
  unfold State.afterEdge; split <;> rfl
@[simp] theorem State.afterEdge_coincidences (s : State) (b : Level) :
    (s.afterEdge b).coincidences = s.coincidences := by
  unfold State.afterEdge; split <;> rfl

/-! ### What is presented -/

/-- With nothing presented, the idle command word is taken. -/
theorem State.fetch_of_nil {s : State} (h : s.arrivals = []) : s.fetch = (some (.command 0x000#10), s) := by
  simp [State.fetch, h]

/-- An encoded operation presented first is taken. -/
theorem State.fetch_of_arrivalOf {s : State} {pw : PortWord} {rest : List Arrival}
    (h : s.arrivals = arrivalOf pw :: rest) : s.fetch = (some pw, { s with arrivals := rest }) := by
  cases pw <;> simp [State.fetch, h, arrivalOf]

/-- A rising transition presented first is taken as no operation. -/
theorem State.fetch_of_rise {s : State} {rest : List Arrival} (h : s.arrivals = .rise :: rest) :
    s.fetch = (none, { s with arrivals := rest }) := by
  simp [State.fetch, h]

/-- Of a coincidence the operation drawn first is taken, and the other one is presented next (20_memory.md R65). -/
theorem State.fetch_of_coincident {s : State} {cw : CommandWord} {b : Level} {rest : List Arrival}
    (h : s.arrivals = .coincident cw b :: rest) :
    s.fetch =
      if Config.hostFirst s.coincidences then
        (some (.command cw), { s with arrivals := .fall b :: rest, coincidences := s.coincidences + 1 })
      else (some (.link b), { s with arrivals := .command cw :: rest, coincidences := s.coincidences + 1 }) := by
  simp [State.fetch, h]

/-! ### Runs -/

theorem runOps_nil (s : State) : runOps [] s = .next s := rfl

/-- A run that completes applies its first operation and completes from there. -/
theorem runOps_cons_eq_next_iff {i : Instr} {is : List Instr} {s u : State} :
    runOps (i :: is) s = .next u ↔ ∃ t, exec i s = .next t ∧ runOps is t = .next u := by
  simp only [runOps]
  cases exec i s <;> simp

/-- A run over two lists is the run over the first and then over the second. -/
theorem runOps_append_eq_next_iff {xs ys : List Instr} {s u : State} :
    runOps (xs ++ ys) s = .next u ↔ ∃ t, runOps xs s = .next t ∧ runOps ys t = .next u := by
  induction xs generalizing s with
  | nil => simp [runOps_nil]
  | cons i is ih =>
    simp only [List.cons_append, runOps_cons_eq_next_iff, ih]
    constructor
    · rintro ⟨a, ha, b, hb, hc⟩
      exact ⟨b, ⟨a, ha, hb⟩, hc⟩
    · rintro ⟨b, ⟨a, ha, hb⟩, hc⟩
      exact ⟨a, ha, b, hb, hc⟩

/-- One step of the host's run, for any machine. -/
theorem core_run_succ (M : Host.Core) (k : Nat) (s : M.State) : M.run (k + 1) s =
    match M.step s with
    | .next t => M.run k t
    | .fault r => .fault r
    | .refused r => .refused r := rfl

/-- Running the steps is what the host's interface runs. -/
theorem runSteps_eq_core_run (k : Nat) (s : State) : runSteps k s = Host.Core.run Sys2Proof.core k s := by
  induction k generalizing s with
  | zero => rfl
  | succ k ih =>
    refine Eq.trans ?_ (core_run_succ Sys2Proof.core k s).symm
    have hs : Sys2Proof.core.step s = step s := rfl
    rw [hs]
    simp only [runSteps]
    cases h : step s with
    | next t => exact ih t
    | fault r => rfl
    | refused r => rfl

/-- So many steps complete by a first one that completes and the rest from there. -/
theorem runSteps_succ_eq_next_iff {k : Nat} {s u : State} :
    runSteps (k + 1) s = .next u ↔ ∃ t, step s = .next t ∧ runSteps k t = .next u := by
  simp only [runSteps]
  cases step s <;> simp

/-- What is observed after a step that completes, and after the steps from there. -/
theorem stepObservations_succ {k : Nat} {s t : State} (h : step s = .next t) :
    stepObservations (k + 1) s = t.observe :: stepObservations k t := by
  simp [stepObservations, h]

/-- What is observed after an operation that completes, and after the operations from there. -/
theorem observations_cons {i : Instr} {is : List Instr} {s t : State} (h : exec i s = .next t) :
    observations (i :: is) s = t.observe :: observations is t := by
  simp [observations, h]

@[simp] theorem edgeInputs_append (xs ys : List Instr) : edgeInputs (xs ++ ys) = edgeInputs xs ++ edgeInputs ys :=
  List.filterMap_append ..

end Sys2Proof.Machine
end

