-- ==== Sys2Proof/Laws/PerInstr.lean ====
section
/-! SUPPORT. For every operation: its encoding reaches the port of the agent that issues it, and a host operation's word
is selected by its own row of the opcode map (00_scope.md R6, 30_encoding.md R80, R82). -/

namespace Sys2Proof.Laws.RowOfTable

/-- The encoding stands at the issuing agent's port, in the row of the operation's mnemonic. -/
def Statement (i : Instr) : Prop :=
  match encode i with
  | .command cw => i.agent = .host ∧ ∃ r ∈ commandTable, r.mnemonic = i.mnemonic ∧ r.selectedBy cw = true
  | .link b => i.agent = .link ∧ i = .edge b
  | .reset => i.agent = .reset ∧ i.mnemonic = "INIT"

theorem nop : Statement .nop := ⟨rfl, _, .head _, rfl, rfl⟩

theorem arm (b : Byte) : Statement (.arm b) :=
  ⟨rfl, _, .tail _ (.head _), rfl, beq_iff_eq.2 (encodedArm_masked b)⟩

theorem take : Statement .take := ⟨rfl, _, .tail _ (.tail _ (.head _)), rfl, rfl⟩

theorem reserved : Statement .reserved := ⟨rfl, _, .tail _ (.tail _ (.tail _ (.head _))), rfl, rfl⟩

theorem edge (bitIn : Level) : Statement (.edge bitIn) := ⟨rfl, rfl⟩

theorem init : Statement .init := ⟨rfl, rfl⟩

end Sys2Proof.Laws.RowOfTable
end

