-- ==== Sys2Proof/Tests/Slice0.lean ====
section
/-! SUPPORT. Small tests, each with its expected result from the spec's own vectors (95_test_vectors.md), and for every
statement with hypotheses a state and operands that meet them. -/

namespace Sys2Proof.Tests

open Sys2Proof.Machine

/-- A running state in the order of 95_test_vectors.md: rx_acc rx_cnt tx_byte tx_cnt latched ready pending sout. -/
def st (rxAcc : Byte) (rxCnt : Count) (txByte : Byte) (txCnt : Count) (latched : Byte) (ready : Bool) (pending : Byte)
    (sout : Level) : State where
  rxAcc := rxAcc
  rxCnt := rxCnt
  txByte := txByte
  txCnt := txCnt
  latched := latched
  ready := ready
  pending := pending
  sout := sout
  lifecycle := .running
  response := none
  arrivals := []
  coincidences := 0

/-- The block of an outcome, where it is a next state. -/
def blockOf : Out → Option Block
  | .next t => some t.block
  | .fault _ => none
  | .refused _ => none

/-- What an outcome answers on the host port. -/
def answerOf : Out → Option ResponseWord
  | .next t => t.response
  | .fault _ => none
  | .refused _ => none

/-! ### Well-formedness: an ill-formed term for each check -/

theorem test_reserved_code_is_ill_formed : Instr.illFormed .reserved = some .reservedCode := by decide
theorem test_run_without_init_is_ill_formed : illFormedRun [.arm 0xA5#8, .take] = some .initMissing := by decide
theorem test_second_init_is_ill_formed : illFormedRun [.init, .take, .init] = some .initTwice := by decide
theorem test_reserved_code_in_a_run_is_ill_formed : illFormedRun [.init, .nop, .reserved] = some .reservedCode := by
  decide
theorem test_program_one_is_well_formed : wellFormedRun (.init :: .arm 0xA5#8 :: rxByte 0x3C#8 ++ poll 1) = true := by
  decide

/-! ### Decoding: words written out bit by bit from 30_encoding.md R82, R85, R88 and 95_test_vectors.md 2.5 -/

theorem test_decode_nop : decodeTableWord 16 0b0010100101 = some .nop := by decide
theorem test_decode_arm : decodeTableWord 16 0b0110100101 = some (.arm 0xA5#8) := by decide
theorem test_decode_take : decodeTableWord 16 0b1011111111 = some .take := by decide
theorem test_decode_reserved : decodeTableWord 16 0b1110100101 = some .reserved := by decide
theorem test_decode_edge : decodeTableWord 8 0b1 = some (.edge true) := by decide
theorem test_decode_init : decodeTableWord 0 0 = some .init := by decide
theorem test_decode_rejects_stray_bits : (decodeWord 16 0x400).toOption = none ∧ decodeTableWord 8 2 = none := by decide
theorem test_response_of_take : responseWord (some 0x3C#8) = 0x13C#9 ∧ responseWord (some 0x00#8) = 0x100#9 := by decide

/-! ### EDGE -/

/-- V1: the first edge of a cycle loads `tx_byte` from `pending` and drives its bit 7. -/
theorem test_edge_first : blockOf (exec (.edge false) (st 0x00 0 0x00 0 0x00 false 0xA5 false)) =
    some (st 0x00 1 0xA5 1 0x00 false 0xA5 true).block := by decide
/-- V8: the eighth edge latches the byte with its own sample, drives bit 0, then clears. -/
theorem test_edge_eighth : blockOf (exec (.edge false) (st 0x1E 7 0xA5 7 0x00 false 0xA5 false)) =
    some (st 0x00 0 0x00 0 0x3C true 0xA5 true).block := by decide

/-! ### ARM and TAKE -/

/-- The worked example of 41_byte_exchange.md R120: in mid-cycle, `pending` alone changes. -/
theorem test_arm_in_mid_cycle : blockOf (exec (.arm 0x5A) (st 0x04 3 0xC3 3 0x00 false 0xC3 false)) =
    some (st 0x04 3 0xC3 3 0x00 false 0x5A false).block := by decide
/-- V13: `ARM` answers nothing and leaves `ready` set. -/
theorem test_arm_answers_none : answerOf (exec (.arm 0x5A) (st 0x00 0 0x00 0 0x3C true 0xA5 true)) = some 0x000#9 := by
  decide
/-- V22: `TAKE` in mid-cycle clears `ready` alone. -/
theorem test_take_in_mid_cycle : blockOf (exec .take (st 0x07 5 0xA5 5 0x99 true 0xA5 false)) =
    some (st 0x07 5 0xA5 5 0x99 false 0xA5 false).block := by decide
/-- V21: the byte, and then nothing of it. -/
theorem test_take_answers : answerOf (exec .take (st 0x00 0 0x00 0 0x3C true 0xA5 true)) = some 0x13C#9 ∧
    answerOf (exec .take (st 0x00 0 0x00 0 0x3C false 0xA5 true)) = some 0x000#9 := by decide

/-! ### The system family and the step -/

/-- V26. -/
theorem test_nop : blockOf (exec .nop (st 0x04 3 0xC3 3 0x11 true 0xC3 true)) =
    some (st 0x04 3 0xC3 3 0x11 true 0xC3 true).block := by decide
/-- V27: the word 0x3A5 does not arm 0xA5. -/
theorem test_reserved : blockOf (exec (decodeCommand 0x3A5#10) (st 0x04 3 0xC3 3 0x11 true 0xC3 true)) =
    some (st 0x04 3 0xC3 3 0x11 true 0xC3 true).block := by decide
/-- V25: `INIT` clears the phase and the mailboxes. -/
theorem test_init : (blockOf (exec .init { st 0x04 3 0xC3 3 0x11 true 0xC3 true with lifecycle := .beforeInit })).map
    (fun b => (b.rxAcc, b.rxCnt, b.txCnt, b.ready, b.pending)) = some (0x00#8, 0#4, 0#4, false, 0x00#8) := by decide
/-- Right after reset the word of `ARM 0xA5` runs as the next step. -/
theorem test_arm_runs_from_reset :
    (blockOf (step (State.reset.withFetchWord 16 0x1A5))).map (fun b => b.pending) = some 0xA5#8 := by decide
/-- The reset event runs where a run begins. -/
theorem test_init_runs_when_placed :
    (blockOf (step (State.reset.withFetchWord 0 0))).map (fun b => b.rxCnt) = some 0#4 := by decide

/-! ### Witnesses: the hypotheses of each statement can be met -/

/-- Between cycles, a byte unread. -/
def idle : State := st 0x00 0 0x00 0 0x3C true 0xA5 true
/-- One edge short of a byte boundary. -/
def last : State := st 0x7F 7 0xA5 7 0x12 true 0xA5 false
/-- In mid-cycle, nothing to take. -/
def mid : State := st 0x04 3 0xC3 3 0x00 false 0x5A false
/-- Before `INIT`. -/
def fresh : State := { mid with lifecycle := .beforeInit }

theorem witness_IgnoredBitsSelectNothing :
    (commandOp 0x2FF#10 = commandOp 0x200#10 ∧ commandOp 0x2FF#10 ≠ 0b01#2) ∧
    (commandOp 0x1A5#10 = 0b01#2 ∧ decodeCommand 0x1A5#10 = decodeCommand 0x1A5#10) := by decide
theorem witness_ResponseWordSaysSomeOrNone :
    (∃ t, exec .take idle = .next t ∧ t.response = some 0x13C#9) ∧
    (∃ t, exec .take mid = .next t ∧ t.response = some 0x000#9) := ⟨⟨_, rfl, rfl⟩, ⟨_, rfl, rfl⟩⟩
theorem witness_BitsNoPortHasAreRejected : 1024 ≤ 1024 ∧ 2 ≤ 2 ∧ 1 ≠ 0 ∧ 16 < 17 := by decide
theorem witness_CommandWordSelectsItsRow : commandOp 0x0FF#10 = 0b00#2 ∧ commandOp 0x100#10 = 0b01#2 ∧
    commandOp 0x2FF#10 = 0b10#2 ∧ commandOp 0x300#10 = 0b11#2 := by decide
theorem witness_NopAnswersNoneAndLeavesTheState : commandOp 0x0FF#10 = 0b00#2 ∧ mid.lifecycle = .running := by decide
theorem witness_ReservedCodeActsAsNop : 0x3FF#10 &&& 0x300#10 = 0x300#10 ∧ mid.lifecycle = .running := by decide
theorem witness_ArmOverwritesPending : mid.lifecycle = .running := rfl
theorem witness_TakeReadsAndClearsReady :
    (idle.lifecycle = .running ∧ idle.ready = true) ∧ (mid.lifecycle = .running ∧ mid.ready = false) := by decide
theorem witness_EdgeInsideACycle :
    (idle.lifecycle = .running ∧ idle.Lawful ∧ idle.rxCnt ≠ 7#4) ∧
    (mid.lifecycle = .running ∧ mid.Lawful ∧ mid.rxCnt ≠ 7#4) := by decide
theorem witness_EdgeAtTheByteBoundary : last.lifecycle = .running ∧ last.Lawful ∧ last.rxCnt = 7#4 := by decide
theorem witness_InitSetsEveryField : fresh.lifecycle = .beforeInit := rfl
theorem witness_StateAfterInit : ∃ t, exec .init fresh = .next t := ⟨_, rfl⟩
theorem witness_InitIsFirstAndOnlyOnce : idle.lifecycle = .running ∧
    ∃ t, fresh.lifecycle = .beforeInit ∧ [Instr.init, .take] ≠ [] ∧ runOps [.init, .take] fresh = .next t :=
  ⟨rfl, _, rfl, by decide, rfl⟩
theorem witness_NothingActsBeforeInit :
    (fresh.lifecycle = .beforeInit ∧ Instr.take ≠ .init) ∧
    (({ fresh with arrivals := [.rise] } : State).lifecycle = .beforeInit ∧
      ({ fresh with arrivals := [.rise] } : State).arrivals = .rise :: []) := by decide
theorem witness_EdgeOutsideTheInvariantsIsRefused :
    (mid.lifecycle = .running ∧ ({ mid with rxCnt := 2#4 } : State).rxCnt ≠ ({ mid with rxCnt := 2#4 } : State).txCnt) ∧
    8 ≤ ({ mid with rxCnt := 8#4 } : State).rxCnt.toNat ∧
    2 ^ ({ mid with rxAcc := 0x08#8 } : State).rxCnt.toNat ≤ ({ mid with rxAcc := 0x08#8 } : State).rxAcc.toNat := by
  decide
theorem witness_StepRunsTheDecodedOperation :
    ({ mid with arrivals := [.command 0x200#10] } : State).arrivals = arrivalOf (.command 0x200#10) :: [] ∧
    (decodeTableWord 16 0x200 = some .take ∧ Instr.take ≠ .init) ∧ decodeTableWord 0 0 = some .init := by decide
theorem witness_IdleStepIsNop : mid.arrivals = [] := rfl
theorem witness_RisingTransitionDoesNothing : mid.lifecycle = .running ∧
    ({ mid with arrivals := [.rise] } : State).arrivals = .rise :: [] := by decide
theorem witness_CoincidenceIsOneOfTwoOrders :
    ({ mid with arrivals := [.coincident 0x200#10 true] } : State).arrivals = .coincident 0x200#10 true :: [] ∧
    (mid.lifecycle = .running ∧ mid.Lawful ∧ (Instr.take).agent = .host ∧ ¬ mid.rxCnt = 7#4 ∧ ¬ mid.txCnt = 0#4) ∧
    (last.lifecycle = .running ∧ last.Lawful ∧ last.rxCnt = 7#4) ∧
    (idle.lifecycle = .running ∧ idle.Lawful ∧ idle.txCnt = 0#4) := by decide
theorem witness_EveryScheduleIsATotalOrder :
    (mid.lifecycle = .running ∧ mid.Lawful ∧
      Arrival.rst ∉ ({ mid with arrivals := [.coincident 0x200#10 true, .rise, .fall false] } : State).arrivals) ∧
    Instr.init ∉ [Instr.take, .edge true] := by decide
theorem witness_EveryStepKeepsTheInvariant : ∃ t, idle.Inv ∧ step (idle.withFetchWord 8 1) = .next t :=
  ⟨_, by decide, rfl⟩
theorem witness_EveryOperationAlwaysApplies : last.lifecycle = .running ∧ last.Lawful ∧ Instr.edge true ≠ .init := by
  decide
theorem witness_EveryInterleavingIsARun : fresh.lifecycle = .beforeInit ∧ Instr.init ∉ [Instr.edge true, .take] := by
  decide
theorem witness_ReachableStatesMeetTheFiveInvariants :
    ∃ t, Instr.init ∉ [Instr.arm 0x5A#8, .edge true] ∧ runOps [.arm 0x5A#8, .edge true] State.reset = .next t ∧
      t.txCnt ≠ 0#4 := ⟨_, by decide, rfl, by decide⟩
theorem witness_HostOperationsLeaveTheEngineAlone :
    (∃ t, (Instr.take).agent = .host ∧ exec .take idle = .next t ∧ t.ready ≠ idle.ready) ∧
    (∃ t, (Instr.arm 0x01#8).agent = .host ∧ exec (.arm 0x01#8) idle = .next t ∧ t.pending ≠ idle.pending) :=
  ⟨⟨_, rfl, rfl, by decide⟩, ⟨_, rfl, rfl, by decide⟩⟩
theorem witness_EdgeLeavesTheHostsSideAlone :
    (∃ t, exec (.edge true) last = .next t ∧ last.ready = true) ∧
    (∃ t, exec (.edge true) mid = .next t ∧ mid.rxCnt ≠ 7#4) := ⟨⟨_, rfl, rfl⟩, ⟨_, rfl, by decide⟩⟩
theorem witness_ReadyFlagRule : (∃ t, exec (.edge true) last = .next t ∧ last.rxCnt = 7#4) ∧
    (∃ t, exec .nop idle = .next t ∧ Instr.nop ≠ .take ∧ Instr.nop ≠ .init) :=
  ⟨⟨_, rfl, rfl⟩, ⟨_, rfl, by decide, by decide⟩⟩
theorem witness_CountersMoveInLockStep :
    (∃ t, mid.rxCnt = mid.txCnt ∧ exec (.edge true) mid = .next t ∧ mid.rxCnt.toNat < 7) ∧
    (∃ t, last.rxCnt = last.txCnt ∧ exec (.edge true) last = .next t ∧ last.rxCnt = 7#4) ∧
    (∃ t, mid.rxCnt = mid.txCnt ∧ exec .take mid = .next t ∧ (Instr.take).agent = .host) :=
  ⟨⟨_, rfl, rfl, by decide⟩, ⟨_, rfl, rfl, rfl⟩, ⟨_, rfl, rfl, rfl⟩⟩
theorem witness_OutputBitComesFromTheLoadedByte :
    (∃ t, exec (.edge true) idle = .next t ∧ idle.txCnt = 0#4) ∧
    (∃ t, exec (.edge true) mid = .next t ∧ mid.txCnt ≠ 0#4 ∧ mid.rxCnt ≠ 7#4) ∧
    (∃ t, exec (.edge true) last = .next t ∧ last.txCnt ≠ 0#4) ∧
    (∃ t, exec .take mid = .next t ∧ (Instr.take).agent = .host) :=
  ⟨⟨_, rfl, rfl⟩, ⟨_, rfl, by decide, by decide⟩, ⟨_, rfl, by decide⟩, ⟨_, rfl, rfl⟩⟩
theorem witness_ReceiveShiftLosesNothing :
    (∃ t, exec (.edge true) mid = .next t ∧ mid.rxCnt ≠ 7#4) ∧
    (∃ t, exec (.edge true) last = .next t ∧ last.rxCnt = 7#4) := ⟨⟨_, rfl, by decide⟩, ⟨_, rfl, rfl⟩⟩
theorem witness_SoutHoldsBetweenEdges :
    (∃ t, edgeCount [.take, .nop] = 0 ∧ Instr.init ∉ [Instr.take, .nop] ∧ runOps [.take, .nop] mid = .next t) ∧
    (∃ t, last.rxCnt = 7#4 ∧ exec (.edge true) last = .next t) ∧
    (∃ t, idle.txCnt = 0#4 ∧ exec (.edge true) idle = .next t) ∧
    (∃ t, runOps [.take, .nop] State.reset = .next t) :=
  ⟨⟨_, rfl, by decide, rfl⟩, ⟨_, rfl, rfl⟩, ⟨_, rfl, rfl⟩, ⟨_, rfl⟩⟩
theorem witness_StalledCycleStaysParked : mid.lifecycle = .running ∧ edgeCount [.take, .arm 0x01#8] = 0 ∧
    Instr.init ∉ [Instr.take, .arm 0x01#8] := by decide
theorem witness_PartialByteHoldsTheSampledBits :
    ∃ t, Instr.init ∉ [Instr.edge true, .edge false] ∧ runOps [.edge true, .edge false] State.reset = .next t :=
  ⟨_, by decide, rfl⟩
theorem witness_LatchedByteIsTheLastWholeFrame :
    ∃ t, Instr.init ∉ rxByte 0xA5#8 ∧ runOps (rxByte 0xA5#8) State.reset = .next t ∧ t.ready = true :=
  ⟨_, by decide, rfl, rfl⟩
theorem witness_CycleLatchesTheByteClockedIn : idle.lifecycle = .running ∧ idle.Lawful ∧ idle.rxCnt = 0#4 ∧
    Instr.init ∉ .take :: edges [true, false, true, false, false, true, false] ∧
    edgeInputs (.take :: edges [true, false, true, false, false, true, false]) =
      [true, false, true, false, false, true, false] := by decide
theorem witness_CycleDrivesTheByteLoadedAtItsFirstEdge : idle.lifecycle = .running ∧ idle.Lawful ∧ idle.txCnt = 0#4 ∧
    Instr.init ∉ .arm 0x01#8 :: edges (List.replicate 7 true) ∧
    edgeCount (.arm 0x01#8 :: edges (List.replicate 7 true)) = 7 := by decide
theorem witness_ArmTakesEffectAtTheNextCycleStart : idle.lifecycle = .running ∧ idle.Lawful ∧ idle.txCnt = 0#4 ∧
    Instr.init ∉ [Instr.arm 0x11#8] ++ (.arm 0x22#8 :: edges (List.replicate 7 true)) ++
      edges (List.replicate 7 false) ∧
    edgeCount [.arm 0x11#8] = 0 ∧ edgeCount (.arm 0x22#8 :: edges (List.replicate 7 true)) = 7 ∧
    edgeCount (edges (List.replicate 7 false)) = 7 := by decide
theorem witness_OutputsDoNotDependOnInputs :
    List.Forall₂ (fun i j => i = j ∨ (sampleOf i).isSome = true ∧ (sampleOf j).isSome = true)
      [Instr.arm 0x01#8, .edge true] [.arm 0x01#8, .edge false] :=
  .cons (.inl rfl) (.cons (.inr ⟨rfl, rfl⟩) .nil)
theorem witness_ReceivedBytesDoNotDependOnArms :
    List.Forall₂ (fun i j => i = j ∨ ∃ x y, i = .arm x ∧ j = .arm y)
      [Instr.arm 0x01#8, .take] [.arm 0x02#8, .take] :=
  .cons (.inr ⟨_, _, rfl, rfl⟩) (.cons (.inl rfl) .nil)
theorem witness_OverwriteKeepsTheSecondByteOnly : idle.lifecycle = .running ∧ idle.Lawful ∧ idle.rxCnt = 0#4 ∧
    Instr.init ∉ rxByte 0x00#8 ++ rxByte 0xFF#8 ∧ Instr.take ∉ rxByte 0x00#8 ++ rxByte 0xFF#8 ∧
    edgeInputs (rxByte 0x00#8 ++ rxByte 0xFF#8) = frameBits 0x00#8 ++ frameBits 0xFF#8 := by decide
theorem witness_PromptHostReceivesEveryByte :
    ({ idle with ready := false } : State).lifecycle = .running ∧ ({ idle with ready := false } : State).Lawful ∧
    ({ idle with ready := false } : State).rxCnt = 0#4 ∧ ({ idle with ready := false } : State).ready = false ∧
    ∀ c ∈ [rxByte 0x12#8, .take :: rxByte 0x34#8], Instr.init ∉ c ∧ edgeCount c = 8 := by decide
theorem witness_SecondTakeAnswersNone : (∃ t, exec .take idle = .next t) ∧
    (mid.lifecycle = .running ∧ mid.Lawful ∧
      Instr.init ∉ [Instr.arm 0x01#8, .edge true, .edge true, .nop, .edge false, .edge true] ∧
      mid.rxCnt.toNat + edgeCount [Instr.arm 0x01#8, .edge true, .edge true, .nop, .edge false, .edge true] < 8) ∧
    (last.lifecycle = .running ∧ last.Lawful ∧ Instr.init ∉ [Instr.take] ∧
      last.rxCnt.toNat + edgeCount [Instr.take] < 8) := ⟨⟨_, rfl⟩, by decide, by decide⟩
theorem witness_ArmIsIdempotent : ∃ t, Instr.init ∉ [Instr.arm 0x01#8, .take] ∧
    (∀ x, Instr.arm x ∈ [Instr.arm 0x01#8, .take] → x = 0x01#8) ∧
    runOps (.arm 0x01#8 :: [.arm 0x01#8, .take]) idle = .next t := ⟨_, by decide, by simp, rfl⟩
theorem witness_ReadyWaitsForTheTake :
    (∃ t, last.rxCnt = 7#4 ∧ exec (.edge true) last = .next t) ∧ (∃ t, exec .take idle = .next t) ∧
    (idle.lifecycle = .running ∧ idle.Lawful ∧ idle.rxReady = true ∧ Instr.take ∉ [Instr.edge true, .nop] ∧
      Instr.init ∉ [Instr.edge true, .nop]) := ⟨⟨_, rfl, rfl⟩, ⟨_, rfl⟩, by decide⟩
theorem witness_EmptyTakeRevealsNoByte : mid.lifecycle = .running ∧ mid.ready = false ∧
    ∀ i ∈ [Instr.take, .arm 0x01#8], i.agent = .host := by decide
theorem witness_HostCannotSeeTheEngine : ∀ i ∈ [Instr.take, .arm 0x01#8], i.agent = .host := by decide
theorem witness_HiddenResidueIsNeverObserved :
    ({ idle with ready := false } : State).agreeButHidden
      { ({ idle with ready := false } : State) with latched := 0x77#8, txByte := 0x66#8 } :=
  ⟨_, _, rfl, fun h => absurd h (by decide), fun h => absurd rfl h⟩

end Sys2Proof.Tests
end

section
/-! Every operation but `INIT` completes in a lawful running state and leaves it lawful and running; so every list of
such operations does (00_scope.md R7, 60_exceptions.md R150). -/

namespace Sys2Proof.Machine

/-! ### What keeps a state lawful -/

/-- `INIT` leaves a state inside the invariants (10_state.md R40). -/
@[simp] theorem State.afterInit_lawful (s : State) : s.afterInit.Lawful := rfl

/-- Short of the byte boundary the receive count goes up by one without wrapping (40_link_engine.md R108). -/
theorem State.Lawful.nextRxCnt_toNat {s : State} (hl : s.Lawful) (hb : s.endsByte = false) :
    s.nextRxCnt.toNat = s.rxCnt.toNat + 1 ∧ s.nextRxCnt.toNat ≤ 7 := by
  obtain ⟨-, hle, -⟩ := s.lawful_iff.1 hl
  have hne : s.rxCnt ≠ 7#4 := fun h => by simp [s.endsByte_iff.2 h] at hb
  have hne' : s.rxCnt.toNat ≠ 7 := fun h => hne (BitVec.eq_of_toNat_eq h)
  have hadd : s.nextRxCnt.toNat = (s.rxCnt.toNat + 1) % 16 := BitVec.toNat_add s.rxCnt 1#4
  omega

/-- The shift register after one more sample still fits in as many bits as have been received. -/
theorem State.Lawful.shiftIn_lt {s : State} (hl : s.Lawful) (b : Level) :
    (shiftIn s.rxAcc b).toNat < 2 ^ (s.rxCnt.toNat + 1) := by
  obtain ⟨-, -, hacc⟩ := s.lawful_iff.1 hl
  have hb : b.toNat ≤ 1 := b.toNat_le
  rw [shiftIn_toNat hl.rxAcc_lt, Nat.pow_succ]
  omega

/-- `EDGE` keeps the invariants: at the boundary the registers are cleared, short of it both counts go up together. -/
theorem State.Lawful.afterEdge {s : State} (hl : s.Lawful) (b : Level) : (s.afterEdge b).Lawful := by
  cases hb : s.endsByte with
  | true => rw [State.afterEdge_of_endsByte hb]; rfl
  | false =>
    obtain ⟨hcnt, -, -⟩ := s.lawful_iff.1 hl
    obtain ⟨hnext, hle⟩ := hl.nextRxCnt_toNat hb
    rw [State.afterEdge_of_not_endsByte hb, State.lawful_iff]
    refine ⟨congrArg (· + 1#4) hcnt, hle, ?_⟩
    simpa only [State.storeShift_rxAcc, State.storeShift_rxCnt, hnext] using hl.shiftIn_lt b

/-- `TAKE` writes no field that the invariants read. -/
theorem State.Lawful.takeLatched {s : State} (hl : s.Lawful) : s.takeLatched.Lawful := by
  rw [State.takeLatched_spec]; exact hl

/-- `TAKE` leaves the lifecycle. -/
@[simp] theorem State.takeLatched_lifecycle (s : State) : s.takeLatched.lifecycle = s.lifecycle := by
  rw [State.takeLatched_spec]

/-! ### Completion of an operation and of a run -/

/-- Every operation but `INIT` completes in a lawful running state, and the state stays lawful and running. -/
theorem exec_completes {i : Instr} {s : State} (hi : i ≠ .init) (hr : s.lifecycle = .running) (hl : s.Lawful) :
    ∃ t, exec i s = .next t ∧ t.lifecycle = .running ∧ t.Lawful := by
  cases i with
  | nop => exact ⟨_, exec_nop_eq_next_iff.2 ⟨hr, rfl⟩, hr, hl⟩
  | arm b => exact ⟨_, exec_arm_eq_next_iff.2 ⟨hr, rfl⟩, hr, hl⟩
  | take => exact ⟨_, exec_take_eq_next_iff.2 ⟨hr, rfl⟩, by simp [hr], hl.takeLatched⟩
  | reserved => exact ⟨_, exec_reserved_eq_next_iff.2 ⟨hr, rfl⟩, hr, hl⟩
  | edge b => exact ⟨_, exec_edge_eq_next_iff.2 ⟨hr, hl, rfl⟩, by simp [hr], hl.afterEdge b⟩
  | init => exact absurd rfl hi

/-- Every list of operations without `INIT` completes from a lawful running state and ends in one. -/
theorem runOps_completes {ops : List Instr} {s : State} (hops : Instr.init ∉ ops) (hr : s.lifecycle = .running)
    (hl : s.Lawful) : ∃ t, runOps ops s = .next t ∧ t.lifecycle = .running ∧ t.Lawful := by
  induction ops generalizing s with
  | nil => exact ⟨s, runOps_nil s, hr, hl⟩
  | cons i is ih =>
    obtain ⟨hi, his⟩ := List.ne_and_not_mem_of_not_mem_cons hops
    obtain ⟨u, hu, hur, hul⟩ := exec_completes hi.symm hr hl
    obtain ⟨t, ht, htr, htl⟩ := ih his hur hul
    exact ⟨t, runOps_cons_eq_next_iff.2 ⟨u, hu, ht⟩, htr, htl⟩

/-- Settles O28: `INIT` reaches a lawful running state, and from such a state every run and every operation after it
completes. -/
theorem everyInterleavingIsARun : Obligations.EveryInterleavingIsARun := by
  intro ops s hs hops
  have hinit : exec .init s = .next s.afterInit := exec_init_eq_next_iff.2 ⟨hs, rfl⟩
  obtain ⟨t, ht, htr, htl⟩ := runOps_completes hops s.afterInit_lifecycle s.afterInit_lawful
  refine ⟨t, runOps_cons_eq_next_iff.2 ⟨_, hinit, ht⟩, fun i hi => ?_⟩
  obtain ⟨u, hu, -, -⟩ := exec_completes hi htr htl
  exact ⟨u, hu⟩

end Sys2Proof.Machine
end

section
/-! What the agents' operations write, said once: a host operation and a run of them, and the edge; and how the edges
of a run are counted. -/

namespace Sys2Proof

/-- Every operation is the host's, an edge, or `INIT` (00_scope.md R6). -/
theorem Instr.host_or_edge_or_init (i : Instr) : i.agent = .host ∨ (∃ b, i = .edge b) ∨ i = .init := by
  cases i <;> simp [Instr.agent]

theorem Instr.ne_edge_of_host {i : Instr} (hi : i.agent = .host) (b : Level) : i ≠ .edge b := by
  rintro rfl; cases hi

theorem Instr.ne_init_of_host {i : Instr} (hi : i.agent = .host) : i ≠ .init := by
  rintro rfl; cases hi

end Sys2Proof

namespace Sys2Proof.Machine

/-! ### The host's operations -/

/-- A host operation clears `ready` if it is `TAKE`, writes `pending` if it is `ARM`, answers, and leaves the rest
(60_exceptions.md R165). -/
theorem exec_host_effect {i : Instr} {s t : State} (hi : i.agent = .host) (h : exec i s = .next t) :
    ∃ w, t = { s with
      ready := s.ready && decide (i ≠ .take), pending := pendingAfter i s.pending, response := w } := by
  refine ⟨t.response, ?_⟩
  cases i with
  | nop => obtain ⟨-, rfl⟩ := exec_nop_eq_next_iff.1 h; simp [pendingAfter, State.respond]
  | arm b => obtain ⟨-, rfl⟩ := exec_arm_eq_next_iff.1 h; simp [pendingAfter, State.respond, State.armPending]
  | take => obtain ⟨-, rfl⟩ := exec_take_eq_next_iff.1 h; simp [pendingAfter, State.takeLatched_spec]
  | reserved => obtain ⟨-, rfl⟩ := exec_reserved_eq_next_iff.1 h; simp [pendingAfter, State.respond]
  | edge b => cases hi
  | init => cases hi

/-- A run of host operations writes only what its `TAKE`s and its last `ARM` write. -/
theorem runOps_host_effect {ops : List Instr} {s t : State} (hops : ∀ i ∈ ops, i.agent = .host)
    (h : runOps ops s = .next t) :
    ∃ w, t = { s with
      ready := s.ready && decide (Instr.take ∉ ops), pending := lastArmed ops s.pending, response := w } := by
  induction ops generalizing s with
  | nil => cases h; exact ⟨t.response, by simp [lastArmed]⟩
  | cons i is ih =>
    obtain ⟨hi, his⟩ := List.forall_mem_cons.1 hops
    obtain ⟨u, hu, ht⟩ := runOps_cons_eq_next_iff.1 h
    obtain ⟨_, rfl⟩ := exec_host_effect hi hu
    obtain ⟨w, rfl⟩ := ih his ht
    exact ⟨w, by simp [lastArmed, Bool.and_assoc, eq_comm]⟩

/-! ### The edge -/

/-- Short of the boundary is a count other than 7. -/
theorem State.endsByte_eq_false_iff (s : State) : s.endsByte = false ↔ s.rxCnt ≠ 7#4 := by
  rw [← Bool.not_eq_true, ne_eq, s.endsByte_iff]

/-- An edge sets `ready` at the boundary and otherwise leaves it (10_state.md R29). -/
@[simp] theorem State.afterEdge_ready (s : State) (b : Level) : (s.afterEdge b).ready = (s.endsByte || s.ready) := by
  cases hb : s.endsByte with
  | true => simp [State.afterEdge_of_endsByte hb]
  | false => simp [State.afterEdge_of_not_endsByte hb]

/-- An edge latches the shifted byte at the boundary and otherwise leaves `latched` (10_state.md R31). -/
@[simp] theorem State.afterEdge_latched (s : State) (b : Level) :
    (s.afterEdge b).latched = if s.endsByte then shiftIn s.rxAcc b else s.latched := by
  cases hb : s.endsByte with
  | true => simp [State.afterEdge_of_endsByte hb]
  | false => simp [State.afterEdge_of_not_endsByte hb]

/-- An edge does nothing with `ready` but write it. -/
theorem State.afterEdge_with_ready (s : State) (b : Level) (r : Bool) :
    ({ s with ready := r } : State).afterEdge b = { s.afterEdge b with ready := s.endsByte || r } := by
  cases hb : s.endsByte with
  | true =>
    simp only [State.afterEdge_of_endsByte hb, State.afterEdge_of_endsByte (s := { s with ready := r }) hb]
    rfl
  | false =>
    simp only [State.afterEdge_of_not_endsByte hb, State.afterEdge_of_not_endsByte (s := { s with ready := r }) hb]
    rfl

/-- The first edge of a cycle drives bit 7 of `pending` (40_link_engine.md R103, R104). -/
theorem State.outBit_of_txCnt_eq_zero {s : State} (h : s.txCnt = 0#4) : s.outBit = s.pending.getLsbD 7 := by
  simp [State.outBit, State.cycleByte, State.outIndex, h]

/-- A later edge of a cycle drives the next bit of the byte loaded at the first (40_link_engine.md R104). -/
theorem State.outBit_of_txCnt_ne_zero {s : State} (h : s.txCnt ≠ 0#4) :
    s.outBit = s.txByte.getLsbD (7 - s.txCnt.toNat) := by
  simp [State.outBit, State.cycleByte, State.outIndex, h]

/-- Where the counts are equal, so are the counts after the edge (10_state.md R26). -/
theorem State.nextTxCnt_eq_nextRxCnt {s : State} (h : s.rxCnt = s.txCnt) : s.nextTxCnt = s.nextRxCnt := by
  rw [State.nextTxCnt, State.nextRxCnt, h]

/-! ### Counting edges -/

@[simp] theorem edgeCount_nil : edgeCount [] = 0 := rfl

@[simp] theorem edgeCount_append (xs ys : List Instr) : edgeCount (xs ++ ys) = edgeCount xs + edgeCount ys := by
  simp [edgeCount]

@[simp] theorem edgeCount_edge_cons (b : Level) (is : List Instr) : edgeCount (.edge b :: is) = edgeCount is + 1 := rfl

/-- A host operation is no edge. -/
theorem edgeCount_host_cons {i : Instr} (hi : i.agent = .host) (is : List Instr) :
    edgeCount (i :: is) = edgeCount is := by
  cases i with
  | nop | arm | take | reserved => rfl
  | edge | init => cases hi

/-- A run without `EDGE` and `INIT` is the host's alone. -/
theorem agent_eq_host_of_edgeCount_eq_zero {ops : List Instr} (hcount : edgeCount ops = 0)
    (hops : Instr.init ∉ ops) : ∀ i ∈ ops, i.agent = .host := by
  intro i hi
  rcases i.host_or_edge_or_init with hh | ⟨b, rfl⟩ | rfl
  · exact hh
  · obtain ⟨xs, ys, rfl⟩ := List.append_of_mem hi
    simp at hcount
  · exact absurd hi hops

end Sys2Proof.Machine
end

section
/-! The state between operations: the five invariants of every reachable state, the flag, the counters, the pin and the
state after `INIT` (10_state.md R26, R29, R30, R36, R40). -/

namespace Sys2Proof.Machine

/-! ### The five invariants -/

/-- Where `tx_byte` comes from in the state `t` after the operations `ops`: they are those before the current cycle,
its first edge, and those since, and that edge loaded the byte then pending (10_state.md R36, clause (d)). -/
def LoadedAtCycleStart (ops : List Instr) (t : State) : Prop :=
  ∃ pre b post u, ops = pre ++ .edge b :: post ∧ runOps pre State.reset = .next u ∧
    edgeCount pre % 8 = 0 ∧ 1 + edgeCount post = t.txCnt.toNat ∧ t.txByte = u.pending

/-- The five invariants of 10_state.md R36, of the state `t` after the operations `ops`: `lawful` is (a), (b) and (c),
`parked` and `loaded` are (d), and `phase` is (e). -/
structure FiveInvariants (ops : List Instr) (t : State) : Prop where
  lawful : t.Lawful
  parked : t.txCnt = 0#4 → t.txByte = 0x00#8
  loaded : t.txCnt ≠ 0#4 → LoadedAtCycleStart ops t
  phase : t.rxCnt.toNat = edgeCount ops % 8

/-- One more operation leaves a byte in flight where it came from, if it leaves `tx_byte` and the transmit count goes
up with the number of edges. -/
theorem LoadedAtCycleStart.append {ops : List Instr} {i : Instr} {t u : State} (h : LoadedAtCycleStart ops t)
    (hbyte : u.txByte = t.txByte) (hcnt : u.txCnt.toNat = t.txCnt.toNat + edgeCount [i]) :
    LoadedAtCycleStart (ops ++ [i]) u := by
  obtain ⟨pre, b, post, v, rfl, hv, hpre, hpost, hv'⟩ := h
  refine ⟨pre, b, post ++ [i], v, by simp, hv, hpre, ?_, hbyte.trans hv'⟩
  rw [edgeCount_append, hcnt, ← hpost, Nat.add_assoc]

/-- A host operation leaves the engine, and with it the five invariants. -/
theorem FiveInvariants.host {ops : List Instr} {i : Instr} {t u : State} (h : FiveInvariants ops t)
    (hi : i.agent = .host) (hu : exec i t = .next u) : FiveInvariants (ops ++ [i]) u := by
  have hcount : edgeCount [i] = 0 := edgeCount_host_cons hi []
  obtain ⟨_, rfl⟩ := exec_host_effect hi hu
  exact ⟨h.lawful, h.parked, fun hc => (h.loaded hc).append rfl (by rw [hcount]; rfl), by
    rw [edgeCount_append, hcount]; exact h.phase⟩

/-- The eighth edge of a cycle clears the shift registers. -/
theorem FiveInvariants.edge_of_endsByte {ops : List Instr} {t : State} (h : FiveInvariants ops t)
    (hb : t.endsByte = true) (b : Level) : FiveInvariants (ops ++ [.edge b]) (t.afterEdge b) := by
  have hphase : 7 = edgeCount ops % 8 := by simpa [t.endsByte_iff.1 hb] using h.phase
  have hlawful := h.lawful.afterEdge b
  rw [State.afterEdge_of_endsByte hb] at hlawful ⊢
  exact ⟨hlawful, fun _ => rfl, fun hc => absurd rfl hc, by simp; omega⟩

/-- An edge short of the boundary counts up, and the first of a cycle loads the byte pending. -/
theorem FiveInvariants.edge_of_not_endsByte {ops : List Instr} {t : State} (h : FiveInvariants ops t)
    (ht : runOps ops State.reset = .next t) (hb : t.endsByte = false) (b : Level) :
    FiveInvariants (ops ++ [.edge b]) (t.afterEdge b) := by
  obtain ⟨hcnt, -, -⟩ := t.lawful_iff.1 h.lawful
  obtain ⟨hnext, hle⟩ := h.lawful.nextRxCnt_toNat hb
  have htx : t.nextTxCnt.toNat = t.txCnt.toNat + 1 := by
    rw [State.nextTxCnt_eq_nextRxCnt hcnt, hnext, hcnt]
  have hphase := h.phase
  have hlawful := h.lawful.afterEdge b
  rw [State.afterEdge_of_not_endsByte hb] at hlawful ⊢
  refine ⟨hlawful, fun hc => ?_, fun _ => ?_, ?_⟩
  · have hzero : t.nextTxCnt.toNat = 0 := congrArg BitVec.toNat hc
    omega
  · by_cases hfirst : t.txCnt = 0#4
    · have hstart : edgeCount ops % 8 = 0 := by rw [← hphase, hcnt, hfirst]; rfl
      refine ⟨ops, b, [], t, rfl, ht, hstart, ?_, ?_⟩
      · simp [htx, hfirst]
      · simp [State.cycleByte, hfirst]
    · exact (h.loaded hfirst).append (by simp [State.cycleByte, hfirst]) htx
  · simp [hnext]; omega

/-- Every run without `INIT` from reset ends in a state that meets the five invariants. -/
theorem fiveInvariants_of_run {ops : List Instr} {t : State} (hops : Instr.init ∉ ops)
    (ht : runOps ops State.reset = .next t) : FiveInvariants ops t := by
  induction ops using List.reverseRecOn generalizing t with
  | nil => cases ht; exact ⟨rfl, fun _ => rfl, fun hc => absurd rfl hc, rfl⟩
  | append_singleton ops i ih =>
    obtain ⟨s, hs, hrun⟩ := runOps_append_eq_next_iff.1 ht
    obtain ⟨u, hu, hnil⟩ := runOps_cons_eq_next_iff.1 hrun
    cases hnil
    have hinv := ih (fun h => hops (List.mem_append_left _ h)) hs
    rcases i.host_or_edge_or_init with hi | ⟨b, rfl⟩ | rfl
    · exact hinv.host hi hu
    · obtain ⟨-, -, rfl⟩ := exec_edge_eq_next_iff.1 hu
      cases hb : s.endsByte with
      | true => exact hinv.edge_of_endsByte hb b
      | false => exact hinv.edge_of_not_endsByte hs hb b
    · exact absurd (by simp) hops

/-- Settles O29: by induction on the operations applied since reset. -/
theorem reachableStatesMeetTheFiveInvariants : Obligations.ReachableStatesMeetTheFiveInvariants := by
  intro ops t hops ht
  have hinv := fiveInvariants_of_run hops ht
  obtain ⟨hcnt, hle, hacc⟩ := t.lawful_iff.1 hinv.lawful
  exact ⟨hcnt, hle, hacc, hinv.parked, hinv.loaded, hinv.phase⟩

/-! ### The ready flag -/

/-- No operation but `TAKE` reads `ready`: with another value of it the same operation completes, and what it leaves
differs at most in `ready` (10_state.md R29). -/
theorem exec_with_ready {i : Instr} {s t : State} (hi : i ≠ .take) (h : exec i s = .next t) (r : Bool) :
    ∃ r', exec i { s with ready := r } = .next { t with ready := r' } := by
  cases i with
  | nop => obtain ⟨hr, rfl⟩ := exec_nop_eq_next_iff.1 h; exact ⟨r, exec_nop_eq_next_iff.2 ⟨hr, rfl⟩⟩
  | arm b => obtain ⟨hr, rfl⟩ := exec_arm_eq_next_iff.1 h; exact ⟨r, exec_arm_eq_next_iff.2 ⟨hr, rfl⟩⟩
  | take => exact absurd rfl hi
  | reserved => obtain ⟨hr, rfl⟩ := exec_reserved_eq_next_iff.1 h; exact ⟨r, exec_reserved_eq_next_iff.2 ⟨hr, rfl⟩⟩
  | edge b =>
    obtain ⟨hr, hl, rfl⟩ := exec_edge_eq_next_iff.1 h
    exact ⟨s.endsByte || r, exec_edge_eq_next_iff.2 ⟨hr, hl, (s.afterEdge_with_ready b r).symm⟩⟩
  | init => obtain ⟨hr, rfl⟩ := exec_init_eq_next_iff.1 h; exact ⟨false, exec_init_eq_next_iff.2 ⟨hr, rfl⟩⟩

/-- Settles O32: by the agent of the operation, and for an edge by whether it completes a byte. -/
theorem readyFlagRule : Obligations.ReadyFlagRule := by
  refine ⟨State.observe_rxReady, fun i s t h => ?_⟩
  have hread : i ≠ .take → ∀ r, ∃ r', exec i { s with ready := r } = .next { t with ready := r' } :=
    fun hi => exec_with_ready hi h
  rcases i.host_or_edge_or_init with hi | ⟨b, rfl⟩ | rfl
  · obtain ⟨_, rfl⟩ := exec_host_effect hi h
    exact ⟨by simp [Instr.ne_edge_of_host hi, Instr.ne_init_of_host hi],
      fun b hb => absurd hb (Instr.ne_edge_of_host hi b), fun _ _ => rfl, hread⟩
  · obtain ⟨-, -, rfl⟩ := exec_edge_eq_next_iff.1 h
    refine ⟨by simp [s.endsByte_iff], fun c hc h7 => ?_, fun _ h7 => ?_, hread⟩
    · cases hc
      simp [s.endsByte_iff.2 h7]
    · have hb : s.endsByte = false := s.endsByte_eq_false_iff.2 fun h => h7 ⟨⟨b, rfl⟩, h⟩
      simp [hb]
  · obtain ⟨-, rfl⟩ := exec_init_eq_next_iff.1 h
    exact ⟨by simp, nofun, fun h => absurd rfl h, hread⟩

/-! ### The counters -/

/-- Settles O33: the host leaves both counters, `INIT` clears both, and an edge moves them alike. -/
theorem countersMoveInLockStep : Obligations.CountersMoveInLockStep := by
  refine ⟨rfl, fun i s t hcnt h => ?_⟩
  rcases i.host_or_edge_or_init with hi | ⟨b, rfl⟩ | rfl
  · obtain ⟨_, rfl⟩ := exec_host_effect hi h
    exact ⟨hcnt, fun b hb => absurd hb (Instr.ne_edge_of_host hi b),
      fun b hb => absurd hb (Instr.ne_edge_of_host hi b), fun _ => ⟨rfl, rfl⟩⟩
  · obtain ⟨-, hl, rfl⟩ := exec_edge_eq_next_iff.1 h
    refine ⟨((s.afterEdge b).lawful_iff.1 (hl.afterEdge b)).1, fun c _ hlt => ?_, fun c _ h7 => ?_, nofun⟩
    · have hb : s.endsByte = false := s.endsByte_eq_false_iff.2 fun h7 => by simp [h7] at hlt
      obtain ⟨hnext, -⟩ := hl.nextRxCnt_toNat hb
      rw [State.afterEdge_of_not_endsByte hb]
      exact ⟨hnext, by simp [State.nextTxCnt_eq_nextRxCnt hcnt, hnext, hcnt]⟩
    · rw [State.afterEdge_of_endsByte (s.endsByte_iff.2 h7)]
      exact ⟨rfl, rfl⟩
  · obtain ⟨-, rfl⟩ := exec_init_eq_next_iff.1 h
    exact ⟨rfl, nofun, nofun, nofun⟩

/-! ### The pin -/

/-- A run without `EDGE` and `INIT` leaves SOUT (10_state.md R30). -/
theorem runOps_sout_of_edgeCount_eq_zero {ops : List Instr} {s t : State} (hcount : edgeCount ops = 0)
    (hops : Instr.init ∉ ops) (h : runOps ops s = .next t) : t.sout = s.sout := by
  obtain ⟨_, rfl⟩ := runOps_host_effect (agent_eq_host_of_edgeCount_eq_zero hcount hops) h
  rfl

/-- Settles O36: only an edge drives the pin, and it drives the bit that its count selects. -/
theorem soutHoldsBetweenEdges : Obligations.SoutHoldsBetweenEdges := by
  refine ⟨fun ops s t => runOps_sout_of_edgeCount_eq_zero, fun b s t h7 h => ?_, fun b s t h0 h => ?_,
    fun ops t => runOps_sout_of_edgeCount_eq_zero⟩
  · obtain ⟨-, hl, rfl⟩ := exec_edge_eq_next_iff.1 h
    have htx : s.txCnt = 7#4 := (s.lawful_iff.1 hl).1.symm.trans h7
    refine ⟨?_, by rw [State.afterEdge_of_endsByte (s.endsByte_iff.2 h7)]; rfl⟩
    rw [State.afterEdge_sout, State.outBit_of_txCnt_ne_zero (by simp [htx]), htx]
    rfl
  · obtain ⟨-, -, rfl⟩ := exec_edge_eq_next_iff.1 h
    rw [State.afterEdge_sout, State.outBit_of_txCnt_eq_zero h0]

/-! ### The state after `INIT` -/

/-- Settles O15: the fields by evaluation, `INIT` by its inversion, and the edge because reset is lawful and running. -/
theorem stateAfterInit : Obligations.StateAfterInit := by
  refine ⟨rfl, rfl, rfl, rfl, rfl, rfl, rfl, rfl, fun s t h => ?_, fun b => ?_⟩
  · obtain ⟨-, rfl⟩ := exec_init_eq_next_iff.1 h
    rfl
  · obtain ⟨t, ht, -, -⟩ := exec_completes (i := .edge b) (s := State.reset) nofun rfl rfl
    exact ⟨t, ht⟩

end Sys2Proof.Machine
end

section
/-! What the model's own environment fields, `response`, `arrivals` and `coincidences`, are to an operation: none reads
them, each writes its own answer, and what is presented stays as it is (log entries 1, 2 and 7). -/

namespace Sys2Proof.Machine

/-- The state with this schedule presented to it, after so many coincidences. -/
def State.withSchedule (s : State) (a : List Arrival) (n : Nat) : State :=
  { s with arrivals := a, coincidences := n }

/-- An outcome with its next state changed by `f`. -/
def mapNext (f : State → State) : Out → Out
  | .next t => .next (f t)
  | .fault r => .fault r
  | .refused r => .refused r

variable (s : State) (a : List Arrival) (n : Nat)

@[simp] theorem State.withSchedule_lifecycle : (s.withSchedule a n).lifecycle = s.lifecycle := rfl
@[simp] theorem State.withSchedule_arrivals : (s.withSchedule a n).arrivals = a := rfl
@[simp] theorem State.withSchedule_block : (s.withSchedule a n).block = s.block := rfl
@[simp] theorem State.withSchedule_observe : (s.withSchedule a n).observe = s.observe := rfl
@[simp] theorem State.withSchedule_scheduledActs : (s.withSchedule a n).scheduledActs = scheduled a n := rfl
@[simp] theorem mapNext_next (f : State → State) : mapNext f (.next s) = .next (f s) := rfl

/-! ### The schedule passes through an operation -/

theorem State.whenRunning_withSchedule (t : State) : (s.withSchedule a n).whenRunning (t.withSchedule a n) =
    mapNext (·.withSchedule a n) (s.whenRunning t) := by
  unfold State.whenRunning
  rw [State.withSchedule_lifecycle]
  cases s.lifecycle <;> rfl

theorem State.whenLawful_withSchedule (t : State) : (s.withSchedule a n).whenLawful (t.withSchedule a n) =
    mapNext (·.withSchedule a n) (s.whenLawful t) := by
  unfold State.whenLawful
  rw [State.whenRunning_withSchedule]
  by_cases h : s.lifecycle = .running ∧ ¬ s.Lawful
  · rw [if_pos h, if_pos (by exact h)]; rfl
  · rw [if_neg h, if_neg (by exact h)]

theorem State.takeLatched_withSchedule :
    (s.withSchedule a n).takeLatched = s.takeLatched.withSchedule a n := by
  rw [State.takeLatched_spec, State.takeLatched_spec]; rfl

theorem State.afterEdge_withSchedule (b : Level) :
    (s.withSchedule a n).afterEdge b = (s.afterEdge b).withSchedule a n := by
  cases hb : s.endsByte with
  | true => rw [State.afterEdge_of_endsByte hb, State.afterEdge_of_endsByte (s := s.withSchedule a n) hb]; rfl
  | false =>
    rw [State.afterEdge_of_not_endsByte hb, State.afterEdge_of_not_endsByte (s := s.withSchedule a n) hb]; rfl

/-- Under another schedule the same operation does the same, stops for the same reason, and leaves that schedule. -/
theorem exec_withSchedule (i : Instr) :
    exec i (s.withSchedule a n) = mapNext (·.withSchedule a n) (exec i s) := by
  cases i with
  | nop => exact State.whenRunning_withSchedule s a n (s.respond none)
  | arm b => exact State.whenRunning_withSchedule s a n ((s.armPending b).respond none)
  | take =>
    change (s.withSchedule a n).whenRunning _ = _
    rw [State.takeLatched_withSchedule]
    exact State.whenRunning_withSchedule s a n s.takeLatched
  | reserved => exact State.whenRunning_withSchedule s a n (s.respond none)
  | edge b =>
    change (s.withSchedule a n).whenLawful _ = _
    rw [State.afterEdge_withSchedule]
    exact State.whenLawful_withSchedule s a n (s.afterEdge b)
  | init =>
    unfold exec execInit
    rw [State.withSchedule_lifecycle]
    cases s.lifecycle <;> rfl

/-- Under another schedule the same run leaves the same, but for that schedule. -/
theorem runOps_withSchedule (ops : List Instr) :
    runOps ops (s.withSchedule a n) = mapNext (·.withSchedule a n) (runOps ops s) := by
  induction ops generalizing s with
  | nil => rfl
  | cons i is ih =>
    simp only [runOps, exec_withSchedule]
    cases exec i s with
    | next t => exact ih t
    | fault r => rfl
    | refused r => rfl

/-- Nothing a run of operations lets the outside observe depends on the schedule. -/
theorem observations_withSchedule (ops : List Instr) : observations ops (s.withSchedule a n) = observations ops s := by
  induction ops generalizing s with
  | nil => rfl
  | cons i is ih =>
    simp only [observations, exec_withSchedule]
    cases exec i s with
    | next t => simp [ih]
    | fault r => rfl
    | refused r => rfl

theorem runOps_of_withSchedule {s u : State} {a : List Arrival} {n : Nat} {ops : List Instr}
    (h : runOps ops (s.withSchedule a n) = .next u) : ∃ v, runOps ops s = .next v ∧ u.block = v.block := by
  rw [runOps_withSchedule] at h
  cases hv : runOps ops s with
  | next v => rw [hv] at h; cases h; exact ⟨v, rfl, rfl⟩
  | fault r => rw [hv] at h; cases h
  | refused r => rw [hv] at h; cases h

/-! ### The last answer is not read -/

/-- Every operation writes the response itself. -/
theorem exec_noResponse (i : Instr) : exec i s.noResponse = exec i s := by
  cases i <;> rfl

theorem observations_noResponse (ops : List Instr) : observations ops s.noResponse = observations ops s := by
  cases ops with
  | nil => rfl
  | cons i is => simp only [observations, exec_noResponse]

theorem runOps_of_noResponse {s u : State} {ops : List Instr} (h : runOps ops s.noResponse = .next u) :
    ∃ v, runOps ops s = .next v ∧ u.block = v.block := by
  cases ops with
  | nil => cases h; exact ⟨s, rfl, rfl⟩
  | cons i is => exact ⟨u, by simpa only [runOps, exec_noResponse] using h, rfl⟩

end Sys2Proof.Machine
end

section
/-! Steps over a schedule are the run of one list of operations, and steps over presented operations are their run
(20_memory.md R62). -/

namespace Sys2Proof

/-- Every operation is read back from its encoding at its port (30_encoding.md R82, R85, R88). -/
@[simp] theorem decodePort_encode (i : Instr) : decodePort (encode i) = i := by
  cases i with
  | arm b => simp [encode, decodeCommand, encodedArm_masked, commandData_encodedArm]
  | nop | take | reserved | edge | init => rfl

/-- No operation of the host carries a sample. -/
theorem sampleOf_of_host {i : Instr} (hi : i.agent = .host) : Machine.sampleOf i = none := by
  cases i with
  | nop | arm | take | reserved => rfl
  | edge | init => cases hi

end Sys2Proof

namespace Sys2Proof.Machine

/-- A host operation adds no sample. -/
theorem edgeInputs_host_cons {i : Instr} (hi : i.agent = .host) (is : List Instr) :
    edgeInputs (i :: is) = edgeInputs is :=
  List.filterMap_cons_none (sampleOf_of_host hi)

/-- A host operation is one of the host's operations. -/
theorem hostOps_host_cons {i : Instr} (hi : i.agent = .host) (is : List Instr) :
    hostOps (i :: is) = i :: hostOps is :=
  List.filter_cons_of_pos (by simp [hi])

/-! ### One step -/

/-- A step whose schedule begins with an encoded operation applies that operation to the rest of the schedule. -/
theorem step_of_arrivalOf {s : State} {pw : PortWord} {rest : List Arrival} (h : s.arrivals = arrivalOf pw :: rest) :
    step s = exec (decodePort pw) { s with arrivals := rest } := by
  rw [step, State.fetch_of_arrivalOf h]

/-- A step over a coincidence applies the operation drawn first and leaves the other one presented
(20_memory.md R65). -/
theorem step_of_coincident {s : State} {cw : CommandWord} {b : Level} {rest : List Arrival}
    (h : s.arrivals = .coincident cw b :: rest) :
    step s = if Config.hostFirst s.coincidences then
        exec (decodeCommand cw) (s.withSchedule (.fall b :: rest) (s.coincidences + 1))
      else exec (.edge b) (s.withSchedule (.command cw :: rest) (s.coincidences + 1)) := by
  rw [step, State.fetch_of_coincident h]
  split_ifs <;> rfl

/-- A step that applies one operation and leaves an encoded one presented is, with the step after it, the run of the
two operations. -/
theorem runSteps_two_of_step {s s' : State} {i : Instr} {pw : PortWord} {rest : List Arrival} {n : Nat}
    (h : step s = exec i (s'.withSchedule (arrivalOf pw :: rest) n)) :
    runSteps 2 s = runOps [i, decodePort pw] (s'.withSchedule rest n) := by
  simp only [runSteps, runOps, h, exec_withSchedule s']
  cases exec i s' with
  | next t =>
    simp only [mapNext_next, step_of_arrivalOf (State.withSchedule_arrivals t _ n)]
    rfl
  | fault r => rfl
  | refused r => rfl

/-! ### The list of what the steps apply -/

/-- What the step takes is the first of what the steps apply, and the rest is what the schedule left to it applies. -/
theorem State.fetch_of_scheduledActs {s : State} {act : Option Instr} {acts : List (Option Instr)}
    (h : s.scheduledActs = act :: acts) :
    ∃ pw a n, s.fetch = (pw, s.withSchedule a n) ∧ pw.map decodePort = act ∧ scheduled a n = acts := by
  unfold State.scheduledActs at h
  cases ha : s.arrivals with
  | nil => simp [ha, scheduled] at h
  | cons x rest =>
    rw [ha] at h
    cases x with
    | command cw => exact ⟨_, _, _, s.fetch_of_arrivalOf (pw := .command cw) ha, List.cons.inj h⟩
    | fall b => exact ⟨_, _, _, s.fetch_of_arrivalOf (pw := .link b) ha, List.cons.inj h⟩
    | rise => exact ⟨_, _, _, s.fetch_of_rise ha, List.cons.inj h⟩
    | rst => exact ⟨_, _, _, s.fetch_of_arrivalOf (pw := .reset) ha, List.cons.inj h⟩
    | coincident cw b =>
      simp only [scheduled] at h
      rw [State.fetch_of_coincident ha]
      split_ifs at h ⊢
      · exact ⟨_, _, _, rfl, List.cons.inj h⟩
      · exact ⟨_, _, _, rfl, List.cons.inj h⟩

/-- As many steps as there are acts: two for a coincidence, one for anything else. -/
theorem length_scheduled (a : List Arrival) (n : Nat) : (scheduled a n).length = stepsFor a := by
  induction a generalizing n with
  | nil => rfl
  | cons x rest ih =>
    cases x with
    | command | fall | rise | rst => simp [scheduled, stepsFor, ih, Nat.add_comm]
    | coincident cw b =>
      simp only [scheduled, stepsFor]
      split_ifs <;> simp only [List.length_cons, ih] <;> omega

/-- With no steps to take nothing is presented. -/
theorem arrivals_eq_nil_of_scheduled {a : List Arrival} {n : Nat} (h : scheduled a n = []) : a = [] := by
  have hsteps : stepsFor a = 0 := by rw [← length_scheduled a n, h]; rfl
  cases a with
  | nil => rfl
  | cons x rest => cases x <;> simp [stepsFor] at hsteps

/-- The edges applied are the falling transitions presented, in order. -/
theorem edgeInputs_scheduled (a : List Arrival) (n : Nat) :
    edgeInputs (scheduled a n).reduceOption = linkBits a := by
  induction a generalizing n with
  | nil => rfl
  | cons x rest ih =>
    cases x with
    | command cw => exact (edgeInputs_host_cons (decodeCommand_agent cw) _).trans (ih n)
    | fall b => exact congrArg (b :: ·) (ih n)
    | rise => exact ih n
    | rst => exact ih n
    | coincident cw b =>
      have hrest : edgeInputs (.edge b :: (scheduled rest (n + 1)).reduceOption) =
          linkBits (.coincident cw b :: rest) :=
        congrArg (b :: ·) (ih (n + 1))
      simp only [scheduled]
      split_ifs
      · exact (edgeInputs_host_cons (decodeCommand_agent cw) _).trans hrest
      · exact (congrArg (b :: ·) (edgeInputs_host_cons (decodeCommand_agent cw) _)).trans hrest

/-- The host operations applied are the commands presented, in order. -/
theorem hostOps_scheduled (a : List Arrival) (n : Nat) :
    hostOps (scheduled a n).reduceOption = hostCommands a := by
  induction a generalizing n with
  | nil => rfl
  | cons x rest ih =>
    cases x with
    | command cw => exact (hostOps_host_cons (decodeCommand_agent cw) _).trans (congrArg (_ :: ·) (ih n))
    | fall b => exact ih n
    | rise => exact ih n
    | rst => exact ih n
    | coincident cw b =>
      have hrest : hostOps (decodeCommand cw :: (scheduled rest (n + 1)).reduceOption) =
          hostCommands (.coincident cw b :: rest) :=
        (hostOps_host_cons (decodeCommand_agent cw) _).trans (congrArg (_ :: ·) (ih (n + 1)))
      simp only [scheduled]
      split_ifs
      · exact (hostOps_host_cons (decodeCommand_agent cw) _).trans (congrArg (_ :: ·) (ih (n + 1)))
      · exact hrest

/-- Without an assertion of `rst` the steps apply no `INIT`. -/
theorem init_not_mem_scheduled {a : List Arrival} (h : Arrival.rst ∉ a) (n : Nat) :
    some Instr.init ∉ scheduled a n := by
  have hcw (cw) : Instr.init ≠ decodeCommand cw := (Instr.ne_init_of_host (decodeCommand_agent cw)).symm
  induction a generalizing n with
  | nil => exact List.not_mem_nil
  | cons x rest ih =>
    obtain ⟨hx, hrest⟩ := List.ne_and_not_mem_of_not_mem_cons h
    cases x with
    | command | fall | rise => simp [scheduled, hcw, ih hrest]
    | rst => exact absurd rfl hx
    | coincident cw b =>
      simp only [scheduled]
      split_ifs <;> simp [hcw, ih hrest]

/-! ### Steps and the run of the operations -/

/-- From a lawful running state the steps over a schedule without `rst` show after each operation, and leave in the
block, what the run of the operations does: a rising transition changes only the response, which no operation reads. -/
theorem steps_follow_scheduledActs {acts : List (Option Instr)} {s : State} (hr : s.lifecycle = .running)
    (hl : s.Lawful) (hacts : s.scheduledActs = acts) (hinit : some Instr.init ∉ acts) :
    operationObservations acts (stepObservations acts.length s) = observations acts.reduceOption s ∧
    ∃ t u, runSteps acts.length s = .next t ∧ t.arrivals = [] ∧
      runOps acts.reduceOption s = .next u ∧ t.block = u.block := by
  induction acts generalizing s with
  | nil => exact ⟨rfl, s, s, rfl, arrivals_eq_nil_of_scheduled hacts, rfl, rfl⟩
  | cons act acts ih =>
    obtain ⟨hact, hinits⟩ := List.ne_and_not_mem_of_not_mem_cons hinit
    obtain ⟨pw, a, n, hfetch, rfl, hrest⟩ := s.fetch_of_scheduledActs hacts
    cases pw with
    | none =>
      have hstep : step s = .next (s.noResponse.withSchedule a n) := by
        rw [step, hfetch]
        exact State.whenRunning_eq_next_iff.2 ⟨hr, rfl⟩
      obtain ⟨hobs, t, u, ht, hta, hu, htu⟩ := ih (s := s.noResponse.withSchedule a n) hr hl hrest hinits
      obtain ⟨v, hv, huv⟩ := runOps_of_withSchedule hu
      obtain ⟨w, hw, hvw⟩ := runOps_of_noResponse hv
      rw [observations_withSchedule, observations_noResponse] at hobs
      refine ⟨?_, t, w, runSteps_succ_eq_next_iff.2 ⟨_, hstep, ht⟩, hta, hw, htu.trans (huv.trans hvw)⟩
      rw [List.length_cons, stepObservations_succ hstep]
      exact hobs
    | some pw =>
      have hi : decodePort pw ≠ .init := fun h => hact (by simp [h])
      obtain ⟨r, hop, hrr, hrl⟩ := exec_completes hi hr hl
      have hstep : step s = .next (r.withSchedule a n) := by
        rw [step, hfetch]
        simp only [exec_withSchedule, hop, mapNext_next]
      obtain ⟨hobs, t, u, ht, hta, hu, htu⟩ := ih (s := r.withSchedule a n) hrr hrl hrest hinits
      obtain ⟨v, hv, huv⟩ := runOps_of_withSchedule hu
      rw [observations_withSchedule] at hobs
      refine ⟨?_, t, v, runSteps_succ_eq_next_iff.2 ⟨_, hstep, ht⟩, hta,
        runOps_cons_eq_next_iff.2 ⟨r, hop, hv⟩, htu.trans huv⟩
      rw [List.length_cons, stepObservations_succ hstep, Option.map_some, List.reduceOption_cons_of_some,
        observations_cons hop]
      exact congrArg (r.observe :: ·) hobs

/-- Steps over presented operations are the run of those operations, whatever is presented after them. -/
theorem runSteps_presented (ops : List Instr) (s : State) (rest : List Arrival) :
    runSteps ops.length { s with arrivals := ops.map (fun i => arrivalOf (encode i)) ++ rest } =
      runOps ops { s with arrivals := rest } := by
  induction ops generalizing s with
  | nil => rfl
  | cons i is ih =>
    have hstep : step { s with arrivals := (i :: is).map (fun i => arrivalOf (encode i)) ++ rest } =
        exec i (s.withSchedule (is.map (fun i => arrivalOf (encode i)) ++ rest) s.coincidences) := by
      rw [step_of_arrivalOf rfl, decodePort_encode]
      rfl
    have hrun : exec i { s with arrivals := rest } = exec i (s.withSchedule rest s.coincidences) := rfl
    rw [List.length_cons, runSteps, runOps, hstep, hrun, exec_withSchedule, exec_withSchedule]
    cases exec i s with
    | next t => exact ih (t.withSchedule t.arrivals s.coincidences)
    | fault r => rfl
    | refused r => rfl

/-- What the outside observes along steps over presented operations is what it observes along their run. -/
theorem stepObservations_presented (ops : List Instr) (s : State) :
    stepObservations ops.length { s with arrivals := ops.map (fun i => arrivalOf (encode i)) } =
      observations ops s := by
  induction ops generalizing s with
  | nil => rfl
  | cons i is ih =>
    have hstep : step { s with arrivals := (i :: is).map (fun i => arrivalOf (encode i)) } =
        exec i (s.withSchedule (is.map (fun i => arrivalOf (encode i))) s.coincidences) := by
      rw [step_of_arrivalOf rfl, decodePort_encode]
      rfl
    rw [List.length_cons, stepObservations, observations, hstep, exec_withSchedule]
    cases exec i s with
    | next t =>
      have hrest := ih (t.withSchedule t.arrivals s.coincidences)
      rw [observations_withSchedule] at hrest
      exact congrArg (t.observe :: ·) hrest
    | fault r => rfl
    | refused r => rfl

/-- Settles O24: by induction on what the steps apply, and conversely by induction on the operations presented. -/
theorem everyScheduleIsATotalOrder : Obligations.EveryScheduleIsATotalOrder := by
  refine ⟨fun s hr hl hrst => ?_, fun ops s hr hl hops => ?_⟩
  · have hinit : some Instr.init ∉ s.scheduledActs := init_not_mem_scheduled hrst s.coincidences
    have hlen : s.scheduledActs.length = stepsFor s.arrivals := length_scheduled s.arrivals s.coincidences
    obtain ⟨hobs, hrun⟩ := steps_follow_scheduledActs hr hl rfl hinit
    rw [hlen] at hobs hrun
    exact ⟨edgeInputs_scheduled _ _, hostOps_scheduled _ _, fun h => hinit (List.reduceOption_mem_iff.1 h), hlen,
      hobs, hrun⟩
  · obtain ⟨t, ht, -, -⟩ := runOps_completes (s := { s with arrivals := [] }) hops hr hl
    refine ⟨t, ht, ?_, stepObservations_presented ops s⟩
    rw [← ht, ← runSteps_presented, List.append_nil]

end Sys2Proof.Machine
end

section
/-! A host operation in full, with its answer; and its two orders with an `EDGE` (20_memory.md R65). -/

namespace Sys2Proof

/-- A response word says what it was made from (30_encoding.md R84). -/
@[simp] theorem readResponse_responseWord (r : Option Byte) : readResponse (responseWord r) = r := by
  cases r with
  | none => rfl
  | some b => revert b; decide

end Sys2Proof

namespace Sys2Proof.Machine

/-! ### The host operation -/

/-- What a host operation answers: the latched byte to a `TAKE` while `ready` is 1, and nothing else
(41_byte_exchange.md R121). -/
def State.answerTo (s : State) (i : Instr) : Option Byte :=
  if i = .take ∧ s.ready = true then some s.latched else none

/-- The whole effect of a host operation on the state (60_exceptions.md R165). -/
def State.afterHost (s : State) (i : Instr) : State :=
  { s with
    ready := s.ready && decide (i ≠ .take), pending := pendingAfter i s.pending
    response := some (responseWord (s.answerTo i)) }

@[simp] theorem State.afterHost_lifecycle (s : State) (i : Instr) : (s.afterHost i).lifecycle = s.lifecycle := rfl
@[simp] theorem State.afterHost_rxAcc (s : State) (i : Instr) : (s.afterHost i).rxAcc = s.rxAcc := rfl
@[simp] theorem State.afterHost_rxCnt (s : State) (i : Instr) : (s.afterHost i).rxCnt = s.rxCnt := rfl
@[simp] theorem State.afterHost_txByte (s : State) (i : Instr) : (s.afterHost i).txByte = s.txByte := rfl
@[simp] theorem State.afterHost_txCnt (s : State) (i : Instr) : (s.afterHost i).txCnt = s.txCnt := rfl
@[simp] theorem State.afterHost_latched (s : State) (i : Instr) : (s.afterHost i).latched = s.latched := rfl
@[simp] theorem State.afterHost_sout (s : State) (i : Instr) : (s.afterHost i).sout = s.sout := rfl
@[simp] theorem State.afterHost_ready (s : State) (i : Instr) :
    (s.afterHost i).ready = (s.ready && decide (i ≠ .take)) := rfl
@[simp] theorem State.afterHost_pending (s : State) (i : Instr) :
    (s.afterHost i).pending = pendingAfter i s.pending := rfl
@[simp] theorem State.afterHost_response (s : State) (i : Instr) :
    (s.afterHost i).response = some (responseWord (s.answerTo i)) := rfl

/-- Every host operation completes in a running state, with that effect. -/
theorem exec_host {i : Instr} {s : State} (hi : i.agent = .host) (hr : s.lifecycle = .running) :
    exec i s = .next (s.afterHost i) := by
  cases i with
  | nop => exact exec_nop_eq_next_iff.2 ⟨hr, by simp [State.afterHost, State.respond, State.answerTo, pendingAfter]⟩
  | arm b =>
    exact exec_arm_eq_next_iff.2
      ⟨hr, by simp [State.afterHost, State.respond, State.armPending, State.answerTo, pendingAfter]⟩
  | take =>
    exact exec_take_eq_next_iff.2
      ⟨hr, by simp [State.afterHost, State.takeLatched_spec, State.answerTo, pendingAfter]⟩
  | reserved =>
    exact exec_reserved_eq_next_iff.2 ⟨hr, by simp [State.afterHost, State.respond, State.answerTo, pendingAfter]⟩
  | edge b => cases hi
  | init => cases hi

/-- An edge completes in a lawful running state. -/
theorem exec_edge {s : State} (hr : s.lifecycle = .running) (hl : s.Lawful) (b : Level) :
    exec (.edge b) s = .next (s.afterEdge b) :=
  exec_edge_eq_next_iff.2 ⟨hr, hl, rfl⟩

/-- A host operation gives its answer, and the run goes on. -/
theorem hostAnswers_host_cons {i : Instr} {s : State} (hi : i.agent = .host) (hr : s.lifecycle = .running)
    (is : List Instr) : hostAnswers (i :: is) s = s.answerTo i :: hostAnswers is (s.afterHost i) := by
  simp [hostAnswers, exec_host hi hr]

/-- An edge answers nothing. -/
theorem hostAnswers_edge_cons {s : State} (hr : s.lifecycle = .running) (hl : s.Lawful) (b : Level) (is : List Instr) :
    hostAnswers (.edge b :: is) s = hostAnswers is (s.afterEdge b) := by
  simp [hostAnswers, exec_edge hr hl]

/-! ### The two orders -/

section
variable {s : State} {h : Instr} (hr : s.lifecycle = .running) (hl : s.Lawful) (hh : h.agent = .host) (b : Level)
include hr hl hh

/-- The host operation and then the edge: both are applied, and the answer is that of the state before. -/
theorem host_then_edge : runOps [h, .edge b] s = .next ((s.afterHost h).afterEdge b) ∧
    hostAnswers [h, .edge b] s = [s.answerTo h] :=
  ⟨runOps_cons_eq_next_iff.2 ⟨_, exec_host hh hr,
    runOps_cons_eq_next_iff.2 ⟨_, exec_edge (s := s.afterHost h) hr hl b, rfl⟩⟩, by
    rw [hostAnswers_host_cons hh hr, hostAnswers_edge_cons (s := s.afterHost h) hr hl]; rfl⟩

/-- The edge and then the host operation: both are applied, and the answer is that of the state after the edge. -/
theorem edge_then_host : runOps [.edge b, h] s = .next ((s.afterEdge b).afterHost h) ∧
    hostAnswers [.edge b, h] s = [(s.afterEdge b).answerTo h] := by
  have hr' : (s.afterEdge b).lifecycle = .running := by simp [hr]
  refine ⟨runOps_cons_eq_next_iff.2 ⟨_, exec_edge hr hl b, runOps_cons_eq_next_iff.2 ⟨_, exec_host hh hr', rfl⟩⟩, ?_⟩
  rw [hostAnswers_edge_cons hr hl, hostAnswers_host_cons hh hr']
  rfl

end

/-- A host operation changes the byte of the cycle only as an `ARM` before its first edge (20_memory.md R64). -/
theorem State.afterHost_cycleByte {s : State} {h : Instr} (harm : ¬ ((∃ x, h = .arm x) ∧ s.txCnt = 0#4))
    (hh : h.agent = .host) : (s.afterHost h).cycleByte = s.cycleByte := by
  cases h with
  | arm x => have hne : s.txCnt ≠ 0#4 := fun h0 => harm ⟨⟨x, rfl⟩, h0⟩; simp [State.cycleByte, hne]
  | nop | take | reserved => rfl
  | edge | init => cases hh

/-- Outside the two cases a host operation and an edge commute in the block. -/
theorem afterHost_afterEdge_block {s : State} {h : Instr} (hh : h.agent = .host)
    (htake : ¬ (h = .take ∧ s.rxCnt = 7#4)) (harm : ¬ ((∃ x, h = .arm x) ∧ s.txCnt = 0#4)) (b : Level) :
    ((s.afterHost h).afterEdge b).block = ((s.afterEdge b).afterHost h).block := by
  have hbyte : (s.afterHost h).cycleByte = s.cycleByte := State.afterHost_cycleByte harm hh
  have hout : (s.afterHost h).outBit = s.outBit := congrArg (BitVec.getLsbD · s.outIndex) hbyte
  cases hb : s.endsByte with
  | true =>
    have hne : h ≠ .take := fun ht => htake ⟨ht, s.endsByte_iff.1 hb⟩
    rw [State.afterEdge_of_endsByte hb, State.afterEdge_of_endsByte (s := s.afterHost h) hb, State.block_eq_iff]
    simp [hout, hne]
  | false =>
    rw [State.afterEdge_of_not_endsByte hb, State.afterEdge_of_not_endsByte (s := s.afterHost h) hb,
      State.block_eq_iff]
    simp [hout, hbyte, State.nextRxCnt, State.nextTxCnt]

/-- An edge changes the answer to a host operation only as the byte boundary before a `TAKE`. -/
theorem State.afterEdge_answerTo {s : State} {h : Instr} (htake : ¬ (h = .take ∧ s.rxCnt = 7#4)) (b : Level) :
    (s.afterEdge b).answerTo h = s.answerTo h := by
  by_cases ht : h = .take
  · have hb : s.endsByte = false := s.endsByte_eq_false_iff.2 fun h7 => htake ⟨ht, h7⟩
    simp [State.answerTo, hb]
  · simp [State.answerTo, ht]

/-- The first edge of a cycle loads the byte pending (40_link_engine.md R103). -/
theorem State.afterEdge_txByte_of_txCnt_eq_zero {s : State} (hl : s.Lawful) (h0 : s.txCnt = 0#4) (b : Level) :
    (s.afterEdge b).txByte = s.pending := by
  obtain ⟨hcnt, -, -⟩ := s.lawful_iff.1 hl
  have hb : s.endsByte = false := s.endsByte_eq_false_iff.2 (by simp [hcnt, h0])
  simp [State.afterEdge_of_not_endsByte hb, State.cycleByte, h0]

/-- Settles O22: two steps are the run in the order drawn; the orders commute where the operations touch different
state, and in the two other cases each order is evaluated. -/
theorem coincidenceIsOneOfTwoOrders : Obligations.CoincidenceIsOneOfTwoOrders := by
  refine ⟨fun s cw b rest ha => ⟨step_of_coincident ha, ?_⟩, fun s h b hr hl hh htake harm => ?_,
    fun s b hr hl h7 => ?_, fun s x b hr hl h0 => ?_⟩
  · have hstep := step_of_coincident ha
    split_ifs at hstep ⊢
    · exact runSteps_two_of_step (pw := .link b) hstep
    · exact runSteps_two_of_step (pw := .command cw) hstep
  · obtain ⟨hrun, hans⟩ := host_then_edge hr hl hh b
    obtain ⟨hrun', hans'⟩ := edge_then_host hr hl hh b
    exact ⟨_, _, hrun, hrun', afterHost_afterEdge_block hh htake harm b, by
      rw [hans, hans', State.afterEdge_answerTo htake]⟩
  · obtain ⟨hrun, hans⟩ := host_then_edge (h := .take) hr hl rfl b
    obtain ⟨hrun', hans'⟩ := edge_then_host (h := .take) hr hl rfl b
    have hb : s.endsByte = true := s.endsByte_iff.2 h7
    have hb' : (s.afterHost .take).endsByte = true := hb
    exact ⟨⟨_, hrun, by simp [hb'], by simp [hb'], by rw [hans]; simp [State.answerTo]⟩,
      ⟨_, hrun', by simp, by rw [hans']; simp [State.answerTo, hb]⟩⟩
  · obtain ⟨hrun, -⟩ := host_then_edge (h := .arm x) hr hl rfl b
    obtain ⟨hrun', -⟩ := edge_then_host (h := .arm x) hr hl rfl b
    exact ⟨⟨_, hrun, State.afterEdge_txByte_of_txCnt_eq_zero (s := s.afterHost (.arm x)) hl h0 b, by
        simp [pendingAfter]⟩,
      ⟨_, hrun', State.afterEdge_txByte_of_txCnt_eq_zero hl h0 b, rfl⟩⟩

end Sys2Proof.Machine
end

section
/-! What SOUT is driven to over whole cycles: the byte pending at each cycle's first edge (20_memory.md R64,
30_encoding.md R87). -/

namespace Sys2Proof

/-- From bit `7 - k` on, the frame of a byte is that bit and the frame from the next one on. -/
theorem frameBits_drop (x : Byte) {k : Nat} (hk : k ≤ 7) :
    (frameBits x).drop k = x.getLsbD (7 - k) :: (frameBits x).drop (k + 1) := by
  interval_cases k <;> rfl

end Sys2Proof

namespace Sys2Proof.Machine

/-! ### The phase and the byte pending after a run -/

/-- In a lawful state at most seven bits of the cycle have been driven (10_state.md R25). -/
theorem State.Lawful.txCnt_le {s : State} (hl : s.Lawful) : s.txCnt.toNat ≤ 7 := by
  obtain ⟨hcnt, hle, -⟩ := s.lawful_iff.1 hl
  rwa [hcnt] at hle

/-- An edge counts one bit further round the byte (40_link_engine.md R105, R106). -/
theorem State.Lawful.afterEdge_txCnt_toNat {s : State} (hl : s.Lawful) (b : Level) :
    (s.afterEdge b).txCnt.toNat = (s.txCnt.toNat + 1) % 8 := by
  obtain ⟨hcnt, -, -⟩ := s.lawful_iff.1 hl
  cases hb : s.endsByte with
  | true => simp [State.afterEdge_of_endsByte hb, ← hcnt, s.endsByte_iff.1 hb]
  | false =>
    obtain ⟨hnext, hle⟩ := hl.nextRxCnt_toNat hb
    rw [State.afterEdge_of_not_endsByte hb, State.storeShift_txCnt, State.nextTxCnt_eq_nextRxCnt hcnt, ← hcnt]
    omega

/-- Short of the boundary an edge keeps the byte of the cycle. -/
theorem State.afterEdge_txByte_of_not_endsByte {s : State} (hb : s.endsByte = false) (b : Level) :
    (s.afterEdge b).txByte = s.cycleByte := by
  rw [State.afterEdge_of_not_endsByte hb]; rfl

/-- A run moves the phase by its edges alone (20_memory.md R56). -/
theorem runOps_txCnt_toNat {ops : List Instr} {s t : State} (hops : Instr.init ∉ ops) (hl : s.Lawful)
    (h : runOps ops s = .next t) : t.txCnt.toNat = (s.txCnt.toNat + edgeCount ops) % 8 := by
  induction ops generalizing s with
  | nil =>
    cases h
    rw [edgeCount_nil, Nat.add_zero, Nat.mod_eq_of_lt (Nat.lt_succ_of_le hl.txCnt_le)]
  | cons i is ih =>
    obtain ⟨hi, his⟩ := List.ne_and_not_mem_of_not_mem_cons hops
    obtain ⟨u, hu, ht⟩ := runOps_cons_eq_next_iff.1 h
    rcases i.host_or_edge_or_init with hh | ⟨b, rfl⟩ | rfl
    · obtain ⟨_, rfl⟩ := exec_host_effect hh hu
      rw [ih his (by exact hl) ht, edgeCount_host_cons hh]
    · obtain ⟨-, -, rfl⟩ := exec_edge_eq_next_iff.1 hu
      rw [ih his (hl.afterEdge b) ht, hl.afterEdge_txCnt_toNat, edgeCount_edge_cons]
      omega
    · exact absurd rfl hi

/-- Arming over two lists is arming over the second after the first. -/
theorem lastArmed_append (xs ys : List Instr) (p : Byte) :
    lastArmed (xs ++ ys) p = lastArmed ys (lastArmed xs p) :=
  List.foldl_append

/-- Every operation leaves in `pending` what `pendingAfter` says (10_state.md R28). -/
theorem exec_pending {i : Instr} {s t : State} (h : exec i s = .next t) : t.pending = pendingAfter i s.pending := by
  rcases i.host_or_edge_or_init with hh | ⟨b, rfl⟩ | rfl
  · obtain ⟨_, rfl⟩ := exec_host_effect hh h; rfl
  · obtain ⟨-, -, rfl⟩ := exec_edge_eq_next_iff.1 h; exact s.afterEdge_pending b
  · obtain ⟨-, rfl⟩ := exec_init_eq_next_iff.1 h; rfl

/-- A run leaves in `pending` the byte last armed, or the one before. -/
theorem runOps_pending {ops : List Instr} {s t : State} (h : runOps ops s = .next t) :
    t.pending = lastArmed ops s.pending := by
  induction ops generalizing s with
  | nil => cases h; rfl
  | cons i is ih =>
    obtain ⟨u, hu, ht⟩ := runOps_cons_eq_next_iff.1 h
    rw [ih ht, exec_pending hu]; rfl

/-! ### The levels driven -/

/-- A host operation drives nothing. -/
theorem drivenLevels_host_cons {i : Instr} {s : State} (hi : i.agent = .host) (hr : s.lifecycle = .running)
    (is : List Instr) : drivenLevels (i :: is) s = drivenLevels is (s.afterHost i) := by
  simp [drivenLevels, exec_host hi hr, sampleOf_of_host hi]

/-- An edge drives its output bit. -/
theorem drivenLevels_edge_cons {s : State} (hr : s.lifecycle = .running) (hl : s.Lawful) (b : Level)
    (is : List Instr) : drivenLevels (.edge b :: is) s = s.outBit :: drivenLevels is (s.afterEdge b) := by
  simp [drivenLevels, exec_edge hr hl, sampleOf]

/-- A run over two lists drives what the first drives and then what the second drives from there. -/
theorem drivenLevels_append {xs ys : List Instr} {s t : State} (h : runOps xs s = .next t) :
    drivenLevels (xs ++ ys) s = drivenLevels xs s ++ drivenLevels ys t := by
  induction xs generalizing s with
  | nil => cases h; rfl
  | cons i is ih =>
    obtain ⟨u, hu, ht⟩ := runOps_cons_eq_next_iff.1 h
    simp only [List.cons_append, drivenLevels, hu, ih ht]
    split_ifs <;> rfl

/-- Host operations alone drive nothing (10_state.md R30). -/
theorem drivenLevels_of_edgeCount_eq_zero {ops : List Instr} {s : State} (hr : s.lifecycle = .running)
    (hops : Instr.init ∉ ops) (hcount : edgeCount ops = 0) : drivenLevels ops s = [] := by
  have hhost := agent_eq_host_of_edgeCount_eq_zero hcount hops
  clear hops hcount
  induction ops generalizing s with
  | nil => rfl
  | cons i is ih =>
    obtain ⟨hi, his⟩ := List.forall_mem_cons.1 hhost
    rw [drivenLevels_host_cons hi hr]
    exact ih (s := s.afterHost i) hr his

/-- The operations `ops`, begun inside a cycle that they complete, drive the bits of its byte that are left. -/
def DrivesRestOfCycle (ops : List Instr) : Prop :=
  ∀ s : State, s.lifecycle = .running → s.Lawful → s.txCnt ≠ 0#4 → s.txCnt.toNat + edgeCount ops = 8 →
    drivenLevels ops s = (frameBits s.txByte).drop s.txCnt.toNat

/-- An edge, the first or a later one, before operations that do so: it drives one bit and loads or keeps the byte. -/
theorem DrivesRestOfCycle.edge_cons {is : List Instr} (h : DrivesRestOfCycle is) (his : Instr.init ∉ is) {s : State}
    (hr : s.lifecycle = .running) (hl : s.Lawful) (b : Level) (hcount : s.txCnt.toNat + edgeCount is = 7) :
    drivenLevels (.edge b :: is) s = (frameBits s.cycleByte).drop s.txCnt.toNat := by
  have hr' : (s.afterEdge b).lifecycle = .running := by simp [hr]
  have hnext := hl.afterEdge_txCnt_toNat b
  rw [drivenLevels_edge_cons hr hl, frameBits_drop _ hl.txCnt_le]
  refine congrArg (s.outBit :: ·) ?_
  by_cases h7 : s.txCnt.toNat = 7
  · rw [drivenLevels_of_edgeCount_eq_zero hr' his (by omega), h7]
    rfl
  · have hlt := hl.txCnt_le
    have hnext' : (s.afterEdge b).txCnt.toNat = s.txCnt.toNat + 1 := by omega
    have hne : (s.afterEdge b).txCnt ≠ 0#4 := fun h0 => by simp [h0] at hnext'
    have hb : s.endsByte = false := s.endsByte_eq_false_iff.2 fun hrx =>
      h7 (by rw [← (s.lawful_iff.1 hl).1, hrx]; rfl)
    rw [h _ hr' (hl.afterEdge b) hne (by omega), State.afterEdge_txByte_of_not_endsByte hb, hnext']

/-- Inside a cycle, the rest of its edges drive the rest of its byte, whatever the host does meanwhile. -/
theorem drivesRestOfCycle {ops : List Instr} (hops : Instr.init ∉ ops) : DrivesRestOfCycle ops := by
  induction ops with
  | nil =>
    intro s _ hl _ hcount
    have hle := hl.txCnt_le
    rw [edgeCount_nil] at hcount
    omega
  | cons i is ih =>
    intro s hr hl h0 hcount
    obtain ⟨hi, his⟩ := List.ne_and_not_mem_of_not_mem_cons hops
    rcases i.host_or_edge_or_init with hh | ⟨b, rfl⟩ | rfl
    · rw [drivenLevels_host_cons hh hr]
      rw [edgeCount_host_cons hh] at hcount
      exact ih his (s.afterHost i) hr hl h0 hcount
    · have hbyte : s.cycleByte = s.txByte := if_neg h0
      rw [edgeCount_edge_cons] at hcount
      rw [(ih his).edge_cons his hr hl b (by omega), hbyte]
    · exact absurd rfl hi

/-- A whole cycle from phase 0 drives the byte pending at its first edge (30_encoding.md R87). -/
theorem drivenLevels_cycle {is : List Instr} {s : State} (hr : s.lifecycle = .running) (hl : s.Lawful)
    (h0 : s.txCnt = 0#4) (his : Instr.init ∉ is) (hcount : edgeCount is = 7) (b : Level) :
    drivenLevels (.edge b :: is) s = frameBits s.pending := by
  have hbyte : s.cycleByte = s.pending := if_pos h0
  rw [(drivesRestOfCycle his).edge_cons his hr hl b (by simp [h0, hcount]), hbyte, h0]
  rfl

/-- A run of whole cycles leaves the phase at 0. -/
theorem runOps_txCnt_eq_zero {ops : List Instr} {s t : State} (hops : Instr.init ∉ ops) (hl : s.Lawful)
    (h0 : s.txCnt = 0#4) (hcount : edgeCount ops % 8 = 0) (h : runOps ops s = .next t) : t.txCnt = 0#4 := by
  apply BitVec.eq_of_toNat_eq
  rw [runOps_txCnt_toNat hops hl h, h0]
  simpa using hcount

/-- Settles O42: each of the two cycles starts at phase 0 and drives what is pending there, the byte last armed. -/
theorem armTakesEffectAtTheNextCycleStart : Obligations.ArmTakesEffectAtTheNextCycleStart := by
  intro before during after b c s hr hl h0 hops hbefore hduring hafter
  simp only [List.mem_append, not_or] at hops
  obtain ⟨⟨hb, hd⟩, ha⟩ := hops
  have hd' : Instr.init ∉ Instr.edge b :: during := by simp [hd]
  obtain ⟨t, ht, htr, htl⟩ := runOps_completes hb hr hl
  obtain ⟨u, hu, hur, hul⟩ := runOps_completes hd' htr htl
  have ht0 : t.txCnt = 0#4 := runOps_txCnt_eq_zero hb hl h0 (by rw [hbefore]) ht
  have hu0 : u.txCnt = 0#4 := runOps_txCnt_eq_zero hd' htl ht0 (by rw [edgeCount_edge_cons, hduring]) hu
  have htp : t.pending = lastArmed before s.pending := runOps_pending ht
  have hup : u.pending = lastArmed (before ++ during) s.pending := by
    rw [runOps_pending hu, htp]
    exact (lastArmed_append before during s.pending).symm
  calc drivenLevels (before ++ .edge b :: during ++ .edge c :: after) s
      = drivenLevels before s ++ drivenLevels (.edge b :: during) t ++ drivenLevels (.edge c :: after) u := by
        rw [drivenLevels_append (runOps_append_eq_next_iff.2 ⟨t, ht, hu⟩), drivenLevels_append ht]
    _ = frameBits (lastArmed before s.pending) ++ frameBits (lastArmed (before ++ during) s.pending) := by
        rw [drivenLevels_of_edgeCount_eq_zero hr hb hbefore, drivenLevels_cycle htr htl ht0 hd hduring,
          drivenLevels_cycle hur hul hu0 ha hafter, htp, hup]
        rfl

end Sys2Proof.Machine
end

section
/-! The words at the host port: the command word is `op` and `data` and selects one row of the opcode map
(30_encoding.md R81 to R83), the response word says `some` or `none` (R84); and the transmit frame of a cycle (R87). -/

namespace Sys2Proof

/-! ### The command word -/

/-- The mask of the opcode map keeps the field `op` and clears `data`. -/
theorem commandWord_masked (cw : CommandWord) : cw &&& 0x300#10 = (commandOp cw).setWidth 10 <<< 8 := by
  ext k hk
  interval_cases k <;> simp [commandOp]

/-- The layout of the command word, as a number (30_encoding.md R81). -/
theorem commandWord_toNat (cw : CommandWord) :
    cw.toNat = (commandOp cw).toNat * 0x100 + (commandData cw).toNat := by
  have hlt : cw.toNat < 1024 := cw.isLt
  simp only [commandOp, commandData, BitVec.extractLsb'_toNat, Nat.shiftRight_eq_div_pow]
  omega

/-- A command word has no bits but `op` and `data`. -/
theorem commandWord_ext {cw cw' : CommandWord} (hop : commandOp cw = commandOp cw')
    (hdata : commandData cw = commandData cw') : cw = cw' := by
  apply BitVec.eq_of_toNat_eq
  rw [commandWord_toNat cw, commandWord_toNat cw', hop, hdata]

/-- The field `op` has four values. -/
theorem commandOp_cases (cw : CommandWord) :
    commandOp cw = 0b00#2 ∨ commandOp cw = 0b01#2 ∨ commandOp cw = 0b10#2 ∨ commandOp cw = 0b11#2 := by
  generalize commandOp cw = op
  revert op
  decide

section
variable {cw : CommandWord}

theorem decodeCommand_of_op_nop (h : commandOp cw = 0b00#2) : decodeCommand cw = .nop := by
  simp [decodeCommand, commandWord_masked, h]

theorem decodeCommand_of_op_arm (h : commandOp cw = 0b01#2) : decodeCommand cw = .arm (commandData cw) := by
  simp [decodeCommand, commandWord_masked, h]

theorem decodeCommand_of_op_take (h : commandOp cw = 0b10#2) : decodeCommand cw = .take := by
  simp [decodeCommand, commandWord_masked, h]

theorem decodeCommand_of_op_reserved (h : commandOp cw = 0b11#2) : decodeCommand cw = .reserved := by
  simp [decodeCommand, commandWord_masked, h]

end

/-- But for `ARM`, the operation depends on `op` alone (30_encoding.md R83). -/
theorem decodeCommand_eq_of_op_eq {cw cw' : CommandWord} (hop : commandOp cw = commandOp cw')
    (harm : commandOp cw ≠ 0b01#2) : decodeCommand cw = decodeCommand cw' := by
  rcases commandOp_cases cw with h | h | h | h
  · rw [decodeCommand_of_op_nop h, decodeCommand_of_op_nop (hop ▸ h)]
  · exact absurd h harm
  · rw [decodeCommand_of_op_take h, decodeCommand_of_op_take (hop ▸ h)]
  · rw [decodeCommand_of_op_reserved h, decodeCommand_of_op_reserved (hop ▸ h)]

/-- `ARM` reads every bit of `data` (30_encoding.md R83, R93). -/
theorem commandWord_eq_of_decode_arm {cw cw' : CommandWord} (h : commandOp cw = 0b01#2) (h' : commandOp cw' = 0b01#2)
    (hdec : decodeCommand cw = decodeCommand cw') : cw = cw' := by
  rw [decodeCommand_of_op_arm h, decodeCommand_of_op_arm h'] at hdec
  exact commandWord_ext (h.trans h'.symm) (Instr.arm.inj hdec)

/-! ### The opcode map -/

/-- Every row of the opcode map tests the field `op` alone. -/
theorem commandTable_mask : ∀ r ∈ commandTable, r.mask = 0x300#10 := by decide

/-- The rows differ in what they match. -/
theorem commandTable_matchBits_injective :
    ∀ r ∈ commandTable, ∀ r' ∈ commandTable, r.matchBits = r'.matchBits → r = r' := by decide

/-- The rows are disjoint (30_encoding.md R82). -/
theorem commandTable_row_unique {cw : CommandWord} {r r' : CommandRow} (hr : r ∈ commandTable)
    (hr' : r' ∈ commandTable) (h : cw &&& r.mask = r.matchBits) (h' : cw &&& r'.mask = r'.matchBits) : r' = r := by
  rw [commandTable_mask r hr] at h
  rw [commandTable_mask r' hr'] at h'
  exact commandTable_matchBits_injective r' hr' r hr (h'.symm.trans h)

/-- The rows cover every command word, each by the row of its operation (30_encoding.md R82). -/
theorem commandTable_row_exists (cw : CommandWord) :
    ∃ r ∈ commandTable, cw &&& r.mask = r.matchBits ∧ r.mnemonic = (decodeCommand cw).mnemonic := by
  rcases commandOp_cases cw with h | h | h | h
  · exact ⟨⟨"NOP", 0x000#10, 0x300#10⟩, by decide, by rw [commandWord_masked, h]; rfl,
      by rw [decodeCommand_of_op_nop h]; rfl⟩
  · exact ⟨⟨"ARM", 0x100#10, 0x300#10⟩, by decide, by rw [commandWord_masked, h]; rfl,
      by rw [decodeCommand_of_op_arm h]; rfl⟩
  · exact ⟨⟨"TAKE", 0x200#10, 0x300#10⟩, by decide, by rw [commandWord_masked, h]; rfl,
      by rw [decodeCommand_of_op_take h]; rfl⟩
  · exact ⟨⟨"RESERVED", 0x300#10, 0x300#10⟩, by decide, by rw [commandWord_masked, h]; rfl,
      by rw [decodeCommand_of_op_reserved h]; rfl⟩

/-! ### The response word -/

/-- `some(b)` is the number `0x100 + b` (30_encoding.md R84). -/
theorem responseWord_some_toNat (b : Byte) : (responseWord (some b)).toNat = 0x100 + b.toNat := by
  have hb : b.toNat < 256 := b.isLt
  simp only [responseWord, BitVec.toNat_add, BitVec.toNat_setWidth, BitVec.toNat_ofNat]
  omega

/-- A response word says `some` exactly when its bit 8 is 1, and then of its data. -/
theorem readResponse_eq_some_iff {w : ResponseWord} {b : Byte} :
    readResponse w = some b ↔ w.getLsbD 8 = true ∧ w.extractLsb' 0 8 = b := by
  simp [readResponse]

/-- Bit 8 of a response word is 1 for `some` and 0 for `none`. -/
@[simp] theorem responseWord_getLsbD_valid (r : Option Byte) : (responseWord r).getLsbD 8 = r.isSome := by
  cases r with
  | none => rfl
  | some b => exact (readResponse_eq_some_iff.1 (readResponse_responseWord (some b))).1

/-- The data of `some(b)` is `b`. -/
@[simp] theorem responseWord_some_data (b : Byte) : (responseWord (some b)).extractLsb' 0 8 = b :=
  (readResponse_eq_some_iff.1 (readResponse_responseWord (some b))).2

end Sys2Proof

namespace Sys2Proof.Machine

/-! ### The response of a step -/

/-- The answer is `some` exactly for a `TAKE` that finds `ready` 1 (41_byte_exchange.md R121). -/
theorem State.answerTo_isSome_iff (s : State) (i : Instr) :
    (s.answerTo i).isSome = true ↔ i = .take ∧ s.ready = true := by
  simp [State.answerTo]

/-- An answer of a byte is the latched one. -/
theorem State.latched_of_answerTo {s : State} {i : Instr} {b : Byte} (h : s.answerTo i = some b) : b = s.latched := by
  unfold State.answerTo at h
  split_ifs at h
  exact (Option.some.inj h).symm

/-- A host operation that goes on does so with its whole effect. -/
theorem eq_afterHost_of_exec {i : Instr} {s t : State} (hi : i.agent = .host) (h : exec i s = .next t) :
    t = s.afterHost i := by
  have hr : s.lifecycle = .running := by
    cases i with
    | nop => exact (exec_nop_eq_next_iff.1 h).1
    | arm b => exact (exec_arm_eq_next_iff.1 h).1
    | take => exact (exec_take_eq_next_iff.1 h).1
    | reserved => exact (exec_reserved_eq_next_iff.1 h).1
    | edge | init => cases hi
  rw [exec_host hi hr] at h
  exact (Host.Outcome.next.inj h).symm

/-- A step that applies an operation responds with its answer if it is the host's, and otherwise not at all. -/
theorem exec_response {i : Instr} {s t : State} (h : exec i s = .next t) :
    t.response = if i.agent = .host then some (responseWord (s.answerTo i)) else none := by
  rcases i.host_or_edge_or_init with hh | ⟨b, rfl⟩ | rfl
  · rw [eq_afterHost_of_exec hh h, if_pos hh]; rfl
  · obtain ⟨-, -, rfl⟩ := exec_edge_eq_next_iff.1 h; exact s.afterEdge_response b
  · obtain ⟨-, rfl⟩ := exec_init_eq_next_iff.1 h; rfl

/-! ### The obligations -/

/-- Settles O41: the frame of the byte that is pending at the first edge of the cycle. -/
theorem cycleDrivesTheByteLoadedAtItsFirstEdge : Obligations.CycleDrivesTheByteLoadedAtItsFirstEdge :=
  fun b _ _ hr hl h0 hops hcount => drivenLevels_cycle hr hl h0 hops hcount b

/-- Settles O4: the decoder reads `op` alone but for `ARM`, and `ARM` reads the rest of the word as well. -/
theorem ignoredBitsSelectNothing : Obligations.IgnoredBitsSelectNothing := by
  refine ⟨fun cw cw' hop harm => ?_, fun cw cw' => commandWord_eq_of_decode_arm, rfl, rfl, rfl⟩
  have hdec := decodeCommand_eq_of_op_eq hop harm
  exact ⟨hdec, fun s => by rw [hdec]⟩

/-- Settles O5: a step's response word is that of the answer, and says what the answer is. -/
theorem responseWordSaysSomeOrNone : Obligations.ResponseWordSaysSomeOrNone := by
  refine ⟨readResponse_responseWord, rfl, responseWord_some_toNat, fun i s t h => ?_, fun i s t w h hw => ?_⟩
  · rw [exec_response h]
    split_ifs with hh <;> simp [hh]
  · have hanswer : w = responseWord (s.answerTo i) := by
      rw [exec_response h] at hw
      split_ifs at hw
      exact (Option.some.inj hw).symm
    subst hanswer
    rw [responseWord_getLsbD_valid]
    refine ⟨s.answerTo_isSome_iff i, ?_⟩
    cases ha : s.answerTo i with
    | none => exact ⟨nofun, fun _ => rfl⟩
    | some b => exact ⟨fun _ => (responseWord_some_data b).trans (State.latched_of_answerTo ha), nofun⟩

/-- Settles O2: the layout, the operation of each `op`, and the one row that selects the word. -/
theorem commandWordSelectsItsRow : Obligations.CommandWordSelectsItsRow := by
  intro cw
  obtain ⟨r, hr, hsel, hname⟩ := commandTable_row_exists cw
  exact ⟨commandWord_toNat cw, decodeCommand_of_op_nop, decodeCommand_of_op_arm, decodeCommand_of_op_take,
    decodeCommand_of_op_reserved, r, hr, hsel, hname, fun _ hr' hsel' => commandTable_row_unique hr hr' hsel hsel'⟩

end Sys2Proof.Machine
end

section
/-! What an `EDGE` shifts, and what a whole cycle of them latches (40_link_engine.md R102 to R104, R110): the engine's
shift over a list of samples is the byte that the serial frame carries (30_encoding.md R86). -/

namespace Sys2Proof

/-- The byte of an eight-bit frame as a number: the first bit on the wire weighs 128, the last 1. -/
theorem frameByte_eight_toNat (i1 i2 i3 i4 i5 i6 i7 i8 : Level) :
    (frameByte [i1, i2, i3, i4, i5, i6, i7, i8]).toNat =
      i1.toNat * 128 + i2.toNat * 64 + i3.toNat * 32 + i4.toNat * 16 + i5.toNat * 8 + i6.toNat * 4 + i7.toNat * 2 +
        i8.toNat := by
  have hle : ∀ b : Level, b.toNat ≤ 1 := Bool.toNat_le
  have h1 := hle i1; have h2 := hle i2; have h3 := hle i3; have h4 := hle i4
  have h5 := hle i5; have h6 := hle i6; have h7 := hle i7; have h8 := hle i8
  simp only [frameByte, List.foldl_cons, List.foldl_nil, BitVec.toNat_ofNat]
  omega

end Sys2Proof

namespace Sys2Proof.Machine

/-! ### The shift and the frame -/

/-- The shift doubles a number and adds the sample, modulo 256. -/
theorem shiftIn_ofNat (n : Nat) (b : Level) : shiftIn (BitVec.ofNat 8 n) b = BitVec.ofNat 8 (2 * n + b.toNat) := by
  have hand : (BitVec.ofNat 8 n <<< 1) &&& (BitVec.ofBool b).setWidth 8 = 0#8 := by
    ext k hk
    cases b <;> cases k <;> simp
  have hbit : ((BitVec.ofBool b).setWidth 8).toNat = b.toNat := by cases b <;> rfl
  apply BitVec.eq_of_toNat_eq
  rw [shiftIn, ← BitVec.add_eq_or_of_and_eq_zero _ _ hand, BitVec.toNat_add, hbit, BitVec.toNat_shiftLeft,
    Nat.shiftLeft_eq, BitVec.toNat_ofNat, BitVec.toNat_ofNat]
  omega

/-- Shifting in a list of samples, oldest first, gives the byte that they carry as a frame (30_encoding.md R86). -/
theorem foldl_shiftIn_eq_frameByte (bits : List Level) : bits.foldl shiftIn 0x00#8 = frameByte bits :=
  List.foldl_hom (BitVec.ofNat 8) shiftIn_ofNat

/-! ### The receive side of an edge -/

/-- Short of the boundary an edge shifts its sample into the receive register (40_link_engine.md R102). -/
theorem State.afterEdge_rxAcc_of_not_endsByte {s : State} (hb : s.endsByte = false) (b : Level) :
    (s.afterEdge b).rxAcc = shiftIn s.rxAcc b := by
  rw [State.afterEdge_of_not_endsByte hb, State.storeShift_rxAcc]

/-- Short of the boundary an edge counts one more bit received. -/
theorem State.Lawful.afterEdge_rxCnt_toNat {s : State} (hl : s.Lawful) (hb : s.endsByte = false) (b : Level) :
    (s.afterEdge b).rxCnt.toNat = s.rxCnt.toNat + 1 := by
  rw [State.afterEdge_of_not_endsByte hb, State.storeShift_rxCnt, (hl.nextRxCnt_toNat hb).1]

/-- At phase 0 the receive register is empty (10_state.md R36). -/
theorem State.Lawful.rxAcc_eq_zero {s : State} (hl : s.Lawful) (h0 : s.rxCnt = 0#4) : s.rxAcc = 0x00#8 := by
  obtain ⟨-, -, hacc⟩ := s.lawful_iff.1 hl
  rw [h0] at hacc
  exact BitVec.eq_of_toNat_eq (Nat.lt_one_iff.1 hacc)

/-! ### The receive side of a run -/

/-- An edge's sample comes before those of the rest of the run. -/
theorem edgeInputs_edge_cons (b : Level) (is : List Instr) : edgeInputs (.edge b :: is) = b :: edgeInputs is := rfl

/-- A run moves the receive phase by its edges alone (20_memory.md R56). -/
theorem runOps_rxCnt_toNat {ops : List Instr} {s t : State} (hops : Instr.init ∉ ops) (hl : s.Lawful)
    (htl : t.Lawful) (h : runOps ops s = .next t) : t.rxCnt.toNat = (s.rxCnt.toNat + edgeCount ops) % 8 := by
  rw [(s.lawful_iff.1 hl).1, (t.lawful_iff.1 htl).1, runOps_txCnt_toNat hops hl h]

/-- A run that stays short of the boundary shifts its samples in one after another, whatever the host does
meanwhile. -/
theorem runOps_rxAcc {ops : List Instr} {s t : State} (hops : Instr.init ∉ ops) (hl : s.Lawful)
    (hshort : s.rxCnt.toNat + edgeCount ops ≤ 7) (h : runOps ops s = .next t) :
    t.rxAcc = (edgeInputs ops).foldl shiftIn s.rxAcc := by
  induction ops generalizing s with
  | nil => cases h; rfl
  | cons i is ih =>
    obtain ⟨hi, his⟩ := List.ne_and_not_mem_of_not_mem_cons hops
    obtain ⟨u, hu, ht⟩ := runOps_cons_eq_next_iff.1 h
    rcases i.host_or_edge_or_init with hh | ⟨b, rfl⟩ | rfl
    · rw [edgeCount_host_cons hh] at hshort
      obtain rfl := eq_afterHost_of_exec hh hu
      rw [ih (s := s.afterHost i) his hl hshort ht, edgeInputs_host_cons hh, State.afterHost_rxAcc]
    · obtain ⟨-, -, rfl⟩ := exec_edge_eq_next_iff.1 hu
      rw [edgeCount_edge_cons] at hshort
      have hb : s.endsByte = false := s.endsByte_eq_false_iff.2 fun h7 => by simp [h7] at hshort
      have hcnt := hl.afterEdge_rxCnt_toNat hb b
      rw [ih his (hl.afterEdge b) (by omega) ht, State.afterEdge_rxAcc_of_not_endsByte hb, edgeInputs_edge_cons,
        List.foldl_cons]
    · exact absurd rfl hi

/-- Seven edges from phase 0 and an eighth latch the frame of their samples, whatever the host does meanwhile
(40_link_engine.md R110). -/
theorem runOps_cycle_latches {ops : List Instr} {s : State} (hr : s.lifecycle = .running) (hl : s.Lawful)
    (h0 : s.rxCnt = 0#4) (hops : Instr.init ∉ ops) (hcount : edgeCount ops = 7) (b : Level) :
    ∃ t, runOps (ops ++ [.edge b]) s = .next t ∧ t.ready = true ∧ t.latched = frameByte (edgeInputs ops ++ [b]) := by
  obtain ⟨u, hu, hur, hul⟩ := runOps_completes hops hr hl
  have hlast : u.endsByte = true := u.endsByte_iff.2 <| BitVec.eq_of_toNat_eq <| by
    rw [runOps_rxCnt_toNat hops hl hul hu, h0, hcount]; rfl
  have hacc : u.rxAcc = (edgeInputs ops).foldl shiftIn 0x00#8 := by
    rw [runOps_rxAcc hops hl (by simp [h0, hcount]) hu, hl.rxAcc_eq_zero h0]
  refine ⟨u.afterEdge b, runOps_append_eq_next_iff.2 ⟨u, hu, runOps_cons_eq_next_iff.2 ⟨_, exec_edge hur hul b, rfl⟩⟩,
    by simp [hlast], ?_⟩
  calc (u.afterEdge b).latched
      = shiftIn u.rxAcc b := by simp [hlast]
    _ = (edgeInputs ops ++ [b]).foldl shiftIn 0x00#8 := by rw [hacc, List.foldl_append]; rfl
    _ = frameByte (edgeInputs ops ++ [b]) := foldl_shiftIn_eq_frameByte _

/-! ### The obligations -/

/-- Settles O40: the cycle latches the frame of its eight samples, which is that number. -/
theorem cycleLatchesTheByteClockedIn : Obligations.CycleLatchesTheByteClockedIn := by
  intro ops i1 i2 i3 i4 i5 i6 i7 i8 s hr hl h0 hops hin
  have hcount : edgeCount ops = 7 := congrArg List.length hin
  obtain ⟨t, ht, hready, hlatched⟩ := runOps_cycle_latches hr hl h0 hops hcount i8
  rw [hin] at hlatched
  exact ⟨t, ht, hready, hlatched ▸ frameByte_eight_toNat i1 i2 i3 i4 i5 i6 i7 i8⟩

/-- Settles O34: an edge drives a bit of the byte it loads or keeps, and the host does not write the pin. -/
theorem outputBitComesFromTheLoadedByte : Obligations.OutputBitComesFromTheLoadedByte := by
  refine ⟨fun b s t h => ?_, fun i s t hi h => ?_⟩
  · obtain ⟨-, hl, rfl⟩ := exec_edge_eq_next_iff.1 h
    rw [State.afterEdge_sout]
    refine ⟨fun h0 => ⟨State.outBit_of_txCnt_eq_zero h0, State.afterEdge_txByte_of_txCnt_eq_zero hl h0 b⟩,
      fun h0 => ⟨State.outBit_of_txCnt_ne_zero h0, fun h7 => ?_⟩⟩
    rw [State.afterEdge_txByte_of_not_endsByte (s.endsByte_eq_false_iff.2 h7)]
    exact if_neg h0
  · rw [eq_afterHost_of_exec hi h, State.afterHost_sout]

/-- Settles O35: in a lawful state bit 7 of the receive register is clear, so that the shift is 2 * rx_acc + b. -/
theorem receiveShiftLosesNothing : Obligations.ReceiveShiftLosesNothing := by
  intro b s t h
  obtain ⟨-, hl, rfl⟩ := exec_edge_eq_next_iff.1 h
  have hshift : (shiftIn s.rxAcc b).toNat = 2 * s.rxAcc.toNat + b.toNat := shiftIn_toNat hl.rxAcc_lt b
  refine ⟨fun h7 => ?_, fun h7 => ?_⟩
  · have hb : s.endsByte = false := s.endsByte_eq_false_iff.2 h7
    rw [State.afterEdge_rxAcc_of_not_endsByte hb]
    exact ⟨rfl, hshift, hl.afterEdge_rxCnt_toNat hb b⟩
  · rw [State.afterEdge_latched, if_pos (s.endsByte_iff.2 h7)]
    exact ⟨rfl, hshift⟩

end Sys2Proof.Machine
end

section
/-! What `ready` promises the host: while it is 1 a byte waits until the next `TAKE`, and while it is 0 the host's
operations answer nothing (41_byte_exchange.md R122, R127). -/

namespace Sys2Proof.Machine

/-! ### While `ready` is 1 -/

/-- Only `TAKE` and `INIT` clear `ready` (10_state.md R29). -/
theorem exec_ready_of_ready {i : Instr} {s t : State} (htake : i ≠ .take) (hinit : i ≠ .init)
    (hready : s.ready = true) (h : exec i s = .next t) : t.ready = true := by
  rcases i.host_or_edge_or_init with hi | ⟨b, rfl⟩ | rfl
  · rw [eq_afterHost_of_exec hi h, State.afterHost_ready]
    simp [hready, htake]
  · obtain ⟨-, -, rfl⟩ := exec_edge_eq_next_iff.1 h
    rw [State.afterEdge_ready, hready, Bool.or_true]
  · exact absurd rfl hinit

/-- A run without `TAKE` and `INIT` leaves `ready` at 1. -/
theorem runOps_ready_of_ready {ops : List Instr} {s t : State} (htake : Instr.take ∉ ops) (hinit : Instr.init ∉ ops)
    (hready : s.ready = true) (h : runOps ops s = .next t) : t.ready = true := by
  induction ops generalizing s with
  | nil => cases h; exact hready
  | cons i is ih =>
    obtain ⟨hi, his⟩ := List.ne_and_not_mem_of_not_mem_cons htake
    obtain ⟨hi', his'⟩ := List.ne_and_not_mem_of_not_mem_cons hinit
    obtain ⟨u, hu, ht⟩ := runOps_cons_eq_next_iff.1 h
    exact ih his his' (exec_ready_of_ready hi.symm hi'.symm hready hu) ht

/-- A `TAKE` that finds `ready` 1 answers the latched byte. -/
theorem State.answerTo_take_of_ready {s : State} (h : s.ready = true) : s.answerTo .take = some s.latched := by
  simp [State.answerTo, h]

/-- Settles O49: the boundary sets the flag, `TAKE` clears it, and nothing else but `INIT` does, so that the `TAKE`
after any other operations finds it set. -/
theorem readyWaitsForTheTake : Obligations.ReadyWaitsForTheTake := by
  refine ⟨State.rxReady_eq, fun b s t h7 h => ?_, fun s t h => ?_, fun ops s hr hl hready htake hinit => ?_⟩
  · obtain ⟨-, -, rfl⟩ := exec_edge_eq_next_iff.1 h
    simp [s.endsByte_iff.2 h7]
  · rw [eq_afterHost_of_exec rfl h]
    simp
  · obtain ⟨t, ht, htr, -⟩ := runOps_completes hinit hr hl
    have htready : t.ready = true := runOps_ready_of_ready htake hinit hready ht
    exact ⟨t, t.afterHost .take, ht, htready, exec_host rfl htr, by
      rw [State.afterHost_response, State.answerTo_take_of_ready htready]⟩

/-! ### While `ready` is 0 -/

/-- While `ready` is 0 no operation answers a byte. -/
theorem State.answerTo_of_not_ready {s : State} (h : s.ready = false) (i : Instr) : s.answerTo i = none := by
  simp [State.answerTo, h]

/-- While `ready` is 0 a run of host operations answers `none` to each, as none of them sets `ready`. -/
theorem hostAnswers_of_not_ready {ops : List Instr} {s : State} (hr : s.lifecycle = .running)
    (hready : s.ready = false) (hops : ∀ i ∈ ops, i.agent = .host) :
    hostAnswers ops s = List.replicate ops.length none := by
  induction ops generalizing s with
  | nil => rfl
  | cons i is ih =>
    obtain ⟨hi, his⟩ := List.forall_mem_cons.1 hops
    have hready' : (s.afterHost i).ready = false := by simp [hready]
    rw [hostAnswers_host_cons hi hr, State.answerTo_of_not_ready hready, ih (s := s.afterHost i) hr hready' his,
      List.length_cons, List.replicate_succ]

/-- Settles O50: an empty `TAKE` answers the word of `none`, and the host's answers are `none` whatever is latched. -/
theorem emptyTakeRevealsNoByte : Obligations.EmptyTakeRevealsNoByte := by
  refine fun s hr hready => ⟨⟨s.afterHost .take, exec_host rfl hr, ?_⟩, fun ops x hops => ?_⟩
  · rw [State.afterHost_response, State.answerTo_of_not_ready hready]
    rfl
  · rw [hostAnswers_of_not_ready hr hready hops, hostAnswers_of_not_ready (s := { s with latched := x }) hr hready hops]

end Sys2Proof.Machine
end

section
/-! The system family: `INIT` is the operation that takes the machine from before a run into it, so that a run has it
first and once (42_system.md R136), and `NOP` only answers (R138). -/

namespace Sys2Proof.Machine

/-- A second `INIT` has no meaning (42_system.md R136). -/
theorem exec_init_of_running {s : State} (hr : s.lifecycle = .running) : exec .init s = .refused .secondInit := by
  simp [exec, execInit, hr]

/-- An operation that completes is `INIT` exactly where `INIT` has not been applied, and afterwards it has been. -/
theorem exec_lifecycle {i : Instr} {s t : State} (h : exec i s = .next t) :
    (i = .init ↔ s.lifecycle = .beforeInit) ∧ t.lifecycle = .running := by
  cases i with
  | nop => obtain ⟨hr, rfl⟩ := exec_nop_eq_next_iff.1 h; simp [hr]
  | arm b => obtain ⟨hr, rfl⟩ := exec_arm_eq_next_iff.1 h; simp [hr]
  | take => obtain ⟨hr, rfl⟩ := exec_take_eq_next_iff.1 h; simp [hr]
  | reserved => obtain ⟨hr, rfl⟩ := exec_reserved_eq_next_iff.1 h; simp [hr]
  | edge b => obtain ⟨hr, -, rfl⟩ := exec_edge_eq_next_iff.1 h; simp [hr]
  | init => obtain ⟨hb, rfl⟩ := exec_init_eq_next_iff.1 h; simp [hb]

/-- A run that completes from a running state holds no `INIT`. -/
theorem init_not_mem_of_runOps {ops : List Instr} {s t : State} (hr : s.lifecycle = .running)
    (h : runOps ops s = .next t) : Instr.init ∉ ops := by
  induction ops generalizing s with
  | nil => exact List.not_mem_nil
  | cons i is ih =>
    obtain ⟨u, hu, ht⟩ := runOps_cons_eq_next_iff.1 h
    obtain ⟨hinit, hur⟩ := exec_lifecycle hu
    have hi : i ≠ .init := fun hi => by simp [hinit.1 hi] at hr
    exact List.not_mem_cons_of_ne_of_not_mem hi.symm (ih hur ht)

/-- Settles O16: before `INIT` only `INIT` completes, and the run after it is one from a running state. -/
theorem initIsFirstAndOnlyOnce : Obligations.InitIsFirstAndOnlyOnce := by
  refine ⟨fun s => exec_init_of_running, fun ops s t hb hne h => ?_⟩
  cases ops with
  | nil => exact absurd rfl hne
  | cons i is =>
    obtain ⟨u, hu, ht⟩ := runOps_cons_eq_next_iff.1 h
    obtain ⟨hinit, hur⟩ := exec_lifecycle hu
    exact ⟨is, congrArg (· :: is) (hinit.2 hb), init_not_mem_of_runOps hur ht⟩

/-- Settles O8: the word by its `op`, and the next state, whose response is the word of `none`. -/
theorem nopAnswersNoneAndLeavesTheState : Obligations.NopAnswersNoneAndLeavesTheState :=
  ⟨fun _ => decodeCommand_of_op_nop, rfl, fun _ hr => exec_nop_eq_next_iff.2 ⟨hr, rfl⟩⟩

end Sys2Proof.Machine
end

section
/-! A completed byte that no `TAKE` reads is overwritten by the next one (60_exceptions.md R152): the second of two
cycles latches its own frame, and the host receives that byte once. -/

namespace Sys2Proof

/-- A byte is the value of its own frame (30_encoding.md R86). -/
@[simp] theorem frameByte_frameBits (x : Byte) : frameByte (frameBits x) = x := by
  apply BitVec.eq_of_toNat_eq
  have hlt : x.toNat < 256 := x.isLt
  rw [frameBits, frameByte_eight_toNat]
  simp only [BitVec.getLsbD, Nat.toNat_testBit]
  omega

/-- The operation that carries a sample is the edge that does. -/
theorem eq_edge_of_sampleOf {i : Instr} {b : Level} (h : Machine.sampleOf i = some b) : i = .edge b := by
  cases i with
  | edge c => exact congrArg Instr.edge (Option.some.inj h)
  | nop | arm | take | reserved | init => cases h

end Sys2Proof

namespace Sys2Proof.Machine

/-! ### The bytes received over a run -/

/-- Only `TAKE` is answered a byte. -/
theorem State.answerTo_of_ne_take {i : Instr} (h : i ≠ .take) (s : State) : s.answerTo i = none := by
  simp [State.answerTo, h]

/-- An operation adds its answer to the bytes received, if that is a byte. -/
theorem receivedBytes_cons {i : Instr} {s t : State} (h : exec i s = .next t) (is : List Instr) :
    receivedBytes (i :: is) s = (s.answerTo i).toList ++ receivedBytes is t := by
  have hresponse := exec_response h
  by_cases hi : i.agent = .host
  · rw [if_pos hi] at hresponse
    simp only [receivedBytes, hostAnswers, h, hresponse, readResponse_responseWord]
    cases s.answerTo i <;> rfl
  · have hne : i ≠ .take := by rintro rfl; exact hi rfl
    rw [if_neg hi] at hresponse
    simp [receivedBytes, hostAnswers, h, hresponse, State.answerTo_of_ne_take hne]

/-- A run over two lists receives what the first receives and then what the second receives from there. -/
theorem receivedBytes_append {xs ys : List Instr} {s t : State} (h : runOps xs s = .next t) :
    receivedBytes (xs ++ ys) s = receivedBytes xs s ++ receivedBytes ys t := by
  induction xs generalizing s with
  | nil => cases h; rfl
  | cons i is ih =>
    obtain ⟨u, hu, ht⟩ := runOps_cons_eq_next_iff.1 h
    rw [List.cons_append, receivedBytes_cons hu, receivedBytes_cons hu, ih ht, List.append_assoc]

/-- A run without `TAKE` receives nothing. -/
theorem receivedBytes_of_take_not_mem {ops : List Instr} {s t : State} (htake : Instr.take ∉ ops)
    (h : runOps ops s = .next t) : receivedBytes ops s = [] := by
  induction ops generalizing s with
  | nil => rfl
  | cons i is ih =>
    obtain ⟨hi, his⟩ := List.ne_and_not_mem_of_not_mem_cons htake
    obtain ⟨u, hu, ht⟩ := runOps_cons_eq_next_iff.1 h
    rw [receivedBytes_cons hu, State.answerTo_of_ne_take hi.symm, ih his ht]
    rfl

/-- Two `TAKE`s of a waiting byte receive it once (20_memory.md R59). -/
theorem receivedBytes_take_take {s : State} (hr : s.lifecycle = .running) (hready : s.ready = true) :
    receivedBytes [.take, .take] s = [s.latched] := by
  have hready' : (s.afterHost .take).ready = false := by simp
  rw [receivedBytes_cons (exec_host rfl hr), receivedBytes_cons (exec_host (s := s.afterHost .take) rfl hr),
    State.answerTo_take_of_ready hready, State.answerTo_of_not_ready hready']
  rfl

/-! ### The last cycle of a run -/

/-- A run whose samples end in one bit has a last edge, with that sample. -/
theorem exists_last_edge {ops : List Instr} {bits : List Level} {b : Level} (h : edgeInputs ops = bits ++ [b]) :
    ∃ xs ys, ops = xs ++ .edge b :: ys ∧ edgeInputs xs = bits ∧ edgeCount ys = 0 := by
  obtain ⟨ws, zs, rfl, hws, hzs⟩ := List.filterMap_eq_append_iff.1 h
  obtain ⟨gap, i, ys, rfl, hgap, hi, hys⟩ := List.filterMap_eq_cons_iff.1 hzs
  obtain rfl := eq_edge_of_sampleOf hi
  have hgap' : edgeInputs gap = [] := List.filterMap_eq_nil_iff.2 hgap
  refine ⟨ws ++ gap, ys, (List.append_assoc ..).symm, ?_, congrArg List.length hys⟩
  rw [edgeInputs_append, hgap', List.append_nil]
  exact hws

/-- A cycle from phase 0 with no `TAKE` in it leaves the frame of its samples waiting, also after the host's operations
that follow its last edge (40_link_engine.md R110). -/
theorem runOps_untaken_cycle {ops : List Instr} {s t : State} (hr : s.lifecycle = .running) (hl : s.Lawful)
    (h0 : s.rxCnt = 0#4) (hinit : Instr.init ∉ ops) (htake : Instr.take ∉ ops) (hcount : edgeCount ops = 8)
    (h : runOps ops s = .next t) : t.ready = true ∧ t.latched = frameByte (edgeInputs ops) := by
  obtain ⟨bits, b, hin⟩ : ∃ bits b, edgeInputs ops = bits ++ [b] :=
    ⟨_, _, (List.dropLast_append_getLast (List.ne_nil_of_length_eq_add_one hcount)).symm⟩
  obtain ⟨xs, ys, rfl, rfl, hys⟩ := exists_last_edge hin
  simp only [List.mem_append, List.mem_cons, not_or] at hinit htake
  obtain ⟨hxs, -, hinit_ys⟩ := hinit
  obtain ⟨-, -, htake_ys⟩ := htake
  have hseven : edgeCount xs = 7 := by simpa [hys] using hcount
  obtain ⟨u, hu, hready, hlatched⟩ := runOps_cycle_latches hr hl h0 hxs hseven b
  rw [List.append_cons, runOps_append_eq_next_iff] at h
  obtain ⟨u', hu', ht⟩ := h
  obtain rfl : u = u' := Host.Outcome.next.inj (hu.symm.trans hu')
  obtain ⟨_, rfl⟩ := runOps_host_effect (agent_eq_host_of_edgeCount_eq_zero hys hinit_ys) ht
  exact ⟨by simp [hready, htake_ys], hlatched.trans (congrArg frameByte hin.symm)⟩

/-- Settles O45: the first cycle ends at phase 0, the second latches its own byte over the first, and of the two
`TAKE`s the first receives it. -/
theorem overwriteKeepsTheSecondByteOnly : Obligations.OverwriteKeepsTheSecondByteOnly := by
  intro ops first second s hr hl h0 hinit htake hin
  obtain ⟨xs, ys, rfl, hxs, hys⟩ := List.filterMap_eq_append_iff.1 hin
  obtain ⟨hinit_xs, hinit_ys⟩ := not_or.1 (List.mem_append.not.1 hinit)
  have htake_ys : Instr.take ∉ ys := fun hmem => htake (List.mem_append_right xs hmem)
  obtain ⟨u, hu, hur, hul⟩ := runOps_completes hinit_xs hr hl
  obtain ⟨t, ht, htr, -⟩ := runOps_completes hinit_ys hur hul
  have hcount_xs : edgeCount xs = 8 := congrArg List.length hxs
  have hcount_ys : edgeCount ys = 8 := congrArg List.length hys
  have hu0 : u.rxCnt = 0#4 := BitVec.eq_of_toNat_eq <| by
    rw [runOps_rxCnt_toNat hinit_xs hl hul hu, h0, hcount_xs]; rfl
  obtain ⟨hready, hlatched⟩ := runOps_untaken_cycle hur hul hu0 hinit_ys htake_ys hcount_ys ht
  have hsecond : t.latched = second := by rw [hlatched, edgeInputs, hys, frameByte_frameBits]
  have hrun : runOps (xs ++ ys) s = .next t := runOps_append_eq_next_iff.2 ⟨u, hu, ht⟩
  refine ⟨t, hrun, hready, ?_⟩
  rw [receivedBytes_append hrun, receivedBytes_of_take_not_mem htake hrun, receivedBytes_take_take htr hready, hsecond]
  rfl

end Sys2Proof.Machine
end

section
/-! The receive side since reset: the samples, cut into groups of eight, are the bytes latched and the bits still in the
receive register (10_state.md R21, 20_memory.md R56). -/

namespace Sys2Proof

/-- One more bit on the wire is one more bit shifted in. -/
theorem frameByte_append_singleton (bits : List Level) (b : Level) :
    frameByte (bits ++ [b]) = Machine.shiftIn (frameByte bits) b := by
  rw [← Machine.foldl_shiftIn_eq_frameByte, ← Machine.foldl_shiftIn_eq_frameByte, List.foldl_append]
  rfl

/-- Bit `k` of the byte of at most eight bits is the `k`-th newest of them, or 0 (30_encoding.md R86). -/
theorem frameByte_getLsbD {bits : List Level} (hlen : bits.length ≤ 8) (k : Nat) :
    (frameByte bits).getLsbD k = bits.reverse.getD k false := by
  induction bits using List.reverseRecOn generalizing k with
  | nil => simp [frameByte]
  | append_singleton bits b ih =>
    rw [List.length_append, List.length_singleton] at hlen
    rw [frameByte_append_singleton, List.reverse_append]
    cases k with
    | zero => cases b <;> simp [Machine.shiftIn]
    | succ k =>
      have hshift : (Machine.shiftIn (frameByte bits) b).getLsbD (k + 1) =
          (decide (k + 1 < 8) && (frameByte bits).getLsbD k) := by simp [Machine.shiftIn]
      rw [hshift, ih (by omega) k, List.reverse_singleton, List.singleton_append, List.getD_cons_succ]
      by_cases hk : k + 1 < 8
      · rw [decide_eq_true hk, Bool.true_and]
      · rw [List.getD_eq_default _ _ (by rw [List.length_reverse]; omega), Bool.and_false]

end Sys2Proof

namespace Sys2Proof.Machine

/-! ### The cut, one bit later -/

/-- One more bit completes the byte begun, if it is its eighth, and otherwise is one more bit of it. -/
theorem cutFrames_append_singleton (part bits : List Level) (b : Level) :
    cutFrames part (bits ++ [b]) =
      if (cutFrames part bits).2.length = 7 then
        ((cutFrames part bits).1 ++ [frameByte ((cutFrames part bits).2 ++ [b])], [])
      else ((cutFrames part bits).1, (cutFrames part bits).2 ++ [b]) := by
  induction bits generalizing part with
  | nil => rfl
  | cons c bits ih =>
    simp only [List.cons_append, cutFrames]
    by_cases hpart : part.length = 7
    · simp only [if_pos hpart, ih]
      split_ifs <;> rfl
    · simp only [if_neg hpart, ih]

/-! ### The receive side of a run -/

/-- The receive side of the state `t` against the samples `bits` since reset: the receive register holds the unfinished
group, `latched` the last whole one, and `ready` is 1 only if there is one. -/
structure ReceiveSide (bits : List Level) (t : State) : Prop where
  count : t.rxCnt.toNat = (cutFrames [] bits).2.length
  acc : t.rxAcc = frameByte (cutFrames [] bits).2
  latched : t.latched = (cutFrames [] bits).1.getLastD 0x00#8
  whole : t.ready = true → (cutFrames [] bits).1.getLast? = some t.latched

/-- A host operation leaves the receive register and the latched byte. -/
theorem ReceiveSide.afterHost {bits : List Level} {t : State} (h : ReceiveSide bits t) (i : Instr) :
    ReceiveSide bits (t.afterHost i) :=
  ⟨h.count, h.acc, h.latched, fun hready => h.whole (Bool.and_eq_true_iff.1 hready).1⟩

/-- The eighth edge of a cycle completes the group and latches its byte. -/
theorem ReceiveSide.afterEdge_of_endsByte {bits : List Level} {t : State} (h : ReceiveSide bits t)
    (hb : t.endsByte = true) (b : Level) : ReceiveSide (bits ++ [b]) (t.afterEdge b) := by
  have hlen : (cutFrames [] bits).2.length = 7 := by rw [← h.count, t.endsByte_iff.1 hb]; rfl
  have hcut : cutFrames [] (bits ++ [b]) = ((cutFrames [] bits).1 ++ [shiftIn t.rxAcc b], []) := by
    rw [cutFrames_append_singleton, if_pos hlen, frameByte_append_singleton, h.acc]
  rw [State.afterEdge_of_endsByte hb]
  refine ⟨?_, ?_, ?_, ?_⟩ <;> rw [hcut]
  · rfl
  · rfl
  · exact List.getLastD_concat.symm
  · exact fun _ => List.getLast?_concat

/-- An edge short of the boundary adds its sample to the unfinished group. -/
theorem ReceiveSide.afterEdge_of_not_endsByte {bits : List Level} {t : State} (h : ReceiveSide bits t)
    (hl : t.Lawful) (hb : t.endsByte = false) (b : Level) : ReceiveSide (bits ++ [b]) (t.afterEdge b) := by
  have hlen : (cutFrames [] bits).2.length ≠ 7 := fun h7 =>
    t.endsByte_eq_false_iff.1 hb (BitVec.eq_of_toNat_eq (h.count.trans h7))
  have hcut : cutFrames [] (bits ++ [b]) = ((cutFrames [] bits).1, (cutFrames [] bits).2 ++ [b]) := by
    rw [cutFrames_append_singleton, if_neg hlen]
  have hlatched : (t.afterEdge b).latched = t.latched := by simp [hb]
  refine ⟨?_, ?_, ?_, ?_⟩ <;> rw [hcut]
  · rw [hl.afterEdge_rxCnt_toNat hb, h.count, List.length_append, List.length_singleton]
  · rw [State.afterEdge_rxAcc_of_not_endsByte hb, h.acc, frameByte_append_singleton]
  · rw [hlatched, h.latched]
  · rw [hlatched, State.afterEdge_ready, hb, Bool.false_or]
    exact h.whole

/-- After every run without `INIT` from reset the receive side is what its samples spell. -/
theorem receiveSide_of_run {ops : List Instr} {t : State} (hops : Instr.init ∉ ops)
    (ht : runOps ops State.reset = .next t) : ReceiveSide (edgeInputs ops) t := by
  induction ops using List.reverseRecOn generalizing t with
  | nil => cases ht; exact ⟨rfl, rfl, rfl, nofun⟩
  | append_singleton ops i ih =>
    obtain ⟨s, hs, hrun⟩ := runOps_append_eq_next_iff.1 ht
    obtain ⟨u, hu, hnil⟩ := runOps_cons_eq_next_iff.1 hrun
    cases hnil
    have hrec := ih (fun h => hops (List.mem_append_left _ h)) hs
    rw [edgeInputs_append]
    rcases i.host_or_edge_or_init with hi | ⟨b, rfl⟩ | rfl
    · have hnone : edgeInputs [i] = [] := edgeInputs_host_cons hi []
      rw [hnone, List.append_nil, eq_afterHost_of_exec hi hu]
      exact hrec.afterHost i
    · obtain ⟨-, hl, rfl⟩ := exec_edge_eq_next_iff.1 hu
      cases hb : s.endsByte with
      | true => exact hrec.afterEdge_of_endsByte hb b
      | false => exact hrec.afterEdge_of_not_endsByte hl hb b
    · exact absurd (by simp) hops

/-- Settles O38: the receive side of the run, read bit by bit; the unfinished group has at most seven bits. -/
theorem partialByteHoldsTheSampledBits : Obligations.PartialByteHoldsTheSampledBits := by
  intro ops t hops ht
  have hrec := receiveSide_of_run hops ht
  obtain ⟨-, hle, -⟩ := t.lawful_iff.1 (fiveInvariants_of_run hops ht).lawful
  refine ⟨hrec.count, hrec.acc, fun k => ?_⟩
  rw [hrec.acc]
  exact frameByte_getLsbD (by rw [← hrec.count]; omega) k

/-- Settles O39: the receive side of the run, and the answer of a `TAKE` while `ready` is 1. -/
theorem latchedByteIsTheLastWholeFrame : Obligations.LatchedByteIsTheLastWholeFrame := by
  intro ops t hops ht
  have hrec := receiveSide_of_run hops ht
  refine ⟨hrec.latched, fun hready => ?_⟩
  obtain ⟨t', ht', htr, -⟩ := runOps_completes (s := State.reset) hops rfl rfl
  obtain rfl : t = t' := Host.Outcome.next.inj (ht.symm.trans ht')
  exact ⟨t.afterHost .take, t.latched, exec_host rfl htr, hrec.whole hready, by
    rw [State.afterHost_response, State.answerTo_take_of_ready hready]⟩

end Sys2Proof.Machine
end

section
/-! Which bytes the host receives over whole cycles, and in a run without edges: at most the one that waits, once
(00_scope.md R14, 41_byte_exchange.md R121, 60_exceptions.md R153). -/

namespace Sys2Proof.Machine

/-- A run and one more operation after it. -/
theorem runOps_append_singleton {ops : List Instr} {i : Instr} {s t u : State} (h : runOps ops s = .next t)
    (hi : exec i t = .next u) : runOps (ops ++ [i]) s = .next u :=
  runOps_append_eq_next_iff.2 ⟨t, h, runOps_cons_eq_next_iff.2 ⟨u, hi, runOps_nil u⟩⟩

/-! ### A run of host operations -/

/-- Host operations alone complete in every running state. -/
theorem runOps_host_completes {ops : List Instr} {s : State} (hops : ∀ i ∈ ops, i.agent = .host)
    (hr : s.lifecycle = .running) : ∃ t, runOps ops s = .next t := by
  induction ops generalizing s with
  | nil => exact ⟨s, runOps_nil s⟩
  | cons i is ih =>
    obtain ⟨hi, his⟩ := List.forall_mem_cons.1 hops
    obtain ⟨t, ht⟩ := ih (s := s.afterHost i) his hr
    exact ⟨t, runOps_cons_eq_next_iff.2 ⟨_, exec_host hi hr, ht⟩⟩

/-- Host operations alone receive the waiting byte once, if there is one and they take (60_exceptions.md R153). -/
theorem receivedBytes_of_host {ops : List Instr} {s : State} (hops : ∀ i ∈ ops, i.agent = .host)
    (hr : s.lifecycle = .running) :
    receivedBytes ops s = if s.ready = true ∧ .take ∈ ops then [s.latched] else [] := by
  induction ops generalizing s with
  | nil => simp [receivedBytes, hostAnswers]
  | cons i is ih =>
    obtain ⟨hi, his⟩ := List.forall_mem_cons.1 hops
    rw [receivedBytes_cons (exec_host hi hr), ih (s := s.afterHost i) his hr]
    by_cases ht : i = .take
    · subst ht
      cases hready : s.ready <;> simp [State.answerTo, hready]
    · simp [State.answerTo_of_ne_take ht, ht, Ne.symm ht]

/-- Settles O37: a run without `EDGE` and `INIT` is one of host operations. -/
theorem stalledCycleStaysParked : Obligations.StalledCycleStaysParked := by
  intro ops s hr hcount hinit
  have hops := agent_eq_host_of_edgeCount_eq_zero hcount hinit
  obtain ⟨t, ht⟩ := runOps_host_completes hops hr
  refine ⟨t, ht, ?_⟩
  obtain ⟨_, rfl⟩ := runOps_host_effect hops ht
  exact ⟨rfl, rfl, rfl, rfl, rfl, rfl, rfl, receivedBytes_of_host hops hr⟩

/-! ### Short of the boundary -/

/-- With nothing waiting, a run that stays short of the byte boundary leaves nothing waiting, and the host receives
nothing (10_state.md R29). -/
theorem nothing_waits_short_of_boundary {ops : List Instr} {s t : State} (hops : Instr.init ∉ ops) (hl : s.Lawful)
    (hshort : s.rxCnt.toNat + edgeCount ops ≤ 7) (hready : s.ready = false) (h : runOps ops s = .next t) :
    t.ready = false ∧ receivedBytes ops s = [] := by
  induction ops generalizing s with
  | nil => cases h; exact ⟨hready, rfl⟩
  | cons i is ih =>
    obtain ⟨hi, his⟩ := List.ne_and_not_mem_of_not_mem_cons hops
    obtain ⟨u, hu, ht⟩ := runOps_cons_eq_next_iff.1 h
    rw [receivedBytes_cons hu, State.answerTo_of_not_ready hready]
    rcases i.host_or_edge_or_init with hh | ⟨b, rfl⟩ | rfl
    · rw [edgeCount_host_cons hh] at hshort
      obtain rfl := eq_afterHost_of_exec hh hu
      exact ih (s := s.afterHost i) his hl hshort (by simp [hready]) ht
    · obtain ⟨-, -, rfl⟩ := exec_edge_eq_next_iff.1 hu
      rw [edgeCount_edge_cons] at hshort
      have hb : s.endsByte = false := s.endsByte_eq_false_iff.2 fun h7 => by simp [h7] at hshort
      have hcnt := hl.afterEdge_rxCnt_toNat hb b
      exact ih his (hl.afterEdge b) (by omega) (by simp [hb, hready]) ht
    · exact absurd rfl hi

/-- A `TAKE` that finds nothing waiting answers `none` and changes nothing else. -/
theorem exec_take_of_not_ready {s : State} (hr : s.lifecycle = .running) (hready : s.ready = false) :
    exec .take s = .next { s with response := some 0x000#9 } :=
  exec_take_eq_next_iff.2 ⟨hr, (State.takeLatched_of_not_ready hready).symm⟩

/-- Settles O47: the first `TAKE` leaves nothing waiting, and only a byte boundary changes that. -/
theorem secondTakeAnswersNone : Obligations.SecondTakeAnswersNone := by
  refine ⟨fun s t h => ?_, fun between s hr hl hinit hshort => ?_⟩
  · obtain ⟨-, htr⟩ := exec_lifecycle h
    obtain rfl := eq_afterHost_of_exec rfl h
    exact exec_take_of_not_ready htr (by simp)
  · obtain ⟨t, ht, htr, -⟩ := runOps_completes (s := s.afterHost .take) hinit hr hl
    obtain ⟨hready, -⟩ := nothing_waits_short_of_boundary (s := s.afterHost .take) hinit hl
      (Nat.le_of_lt_succ hshort) (by simp) ht
    exact ⟨t, runOps_cons_eq_next_iff.2 ⟨_, exec_host rfl hr, ht⟩, exec_take_of_not_ready htr hready⟩

/-! ### Whole cycles, each taken -/

/-- The bytes received from phase 0 with nothing waiting in a cycle and a `TAKE` after it: the byte clocked in, which
waits from the cycle's last edge on and is taken once. -/
theorem receivedBytes_taken_cycle {c : List Instr} {s : State} (hr : s.lifecycle = .running) (hl : s.Lawful)
    (h0 : s.rxCnt = 0#4) (hready : s.ready = false) (hinit : Instr.init ∉ c) (hcount : edgeCount c = 8) :
    receivedBytes (c ++ [.take]) s = [frameByte (edgeInputs c)] := by
  obtain ⟨bits, b, hin⟩ : ∃ bits b, edgeInputs c = bits ++ [b] :=
    ⟨_, _, (List.dropLast_append_getLast (List.ne_nil_of_length_eq_add_one hcount)).symm⟩
  obtain ⟨xs, ys, rfl, rfl, hys⟩ := exists_last_edge hin
  simp only [List.mem_append, List.mem_cons, not_or] at hinit
  obtain ⟨hxs, -, hinit_ys⟩ := hinit
  have hseven : edgeCount xs = 7 := by simpa [hys] using hcount
  obtain ⟨u, hu, hur, hul⟩ := runOps_completes hxs hr hl
  obtain ⟨-, hbefore⟩ := nothing_waits_short_of_boundary hxs hl (by simp [h0, hseven]) hready hu
  obtain ⟨v, hv, hvready, hvlatched⟩ := runOps_cycle_latches hr hl h0 hxs hseven b
  obtain rfl : u.afterEdge b = v :=
    Host.Outcome.next.inj ((runOps_append_singleton hu (exec_edge hur hul b)).symm.trans hv)
  have hafter : ∀ i ∈ ys ++ [.take], i.agent = .host :=
    agent_eq_host_of_edgeCount_eq_zero (by rw [edgeCount_append, hys]; rfl) (by simp [hinit_ys])
  calc receivedBytes (xs ++ .edge b :: ys ++ [.take]) s
      = receivedBytes (ys ++ [.take]) (u.afterEdge b) := by
        rw [List.append_assoc, receivedBytes_append hu, hbefore, List.cons_append,
          receivedBytes_cons (exec_edge hur hul b), State.answerTo_of_ne_take (i := .edge b) nofun]
        rfl
    _ = [(u.afterEdge b).latched] := by
        rw [receivedBytes_of_host hafter (by simp [hur]), if_pos ⟨hvready, by simp⟩]
    _ = [frameByte (edgeInputs (xs ++ .edge b :: ys))] := by rw [hvlatched, hin]

/-- A cycle from phase 0 and a `TAKE` after it complete, back at phase 0 with nothing waiting. -/
theorem runOps_taken_cycle {c : List Instr} {s : State} (hr : s.lifecycle = .running) (hl : s.Lawful)
    (h0 : s.rxCnt = 0#4) (hinit : Instr.init ∉ c) (hcount : edgeCount c = 8) :
    ∃ t, runOps (c ++ [.take]) s = .next t ∧ t.lifecycle = .running ∧ t.Lawful ∧ t.rxCnt = 0#4 ∧ t.ready = false := by
  obtain ⟨u, hu, hur, hul⟩ := runOps_completes hinit hr hl
  refine ⟨u.afterHost .take, runOps_append_singleton hu (exec_host rfl hur), hur, hul, BitVec.eq_of_toNat_eq ?_,
    by simp⟩
  rw [State.afterHost_rxCnt, runOps_rxCnt_toNat hinit hl hul hu, h0, hcount]
  rfl

/-- Settles O46: by induction on the cycles, each from phase 0 with nothing waiting. -/
theorem promptHostReceivesEveryByte : Obligations.PromptHostReceivesEveryByte := by
  intro cycles
  induction cycles with
  | nil => intro s _ _ _ _ _; rfl
  | cons c cycles ih =>
    intro s hr hl h0 hready hcycles
    obtain ⟨⟨hinit, hcount⟩, hrest⟩ := List.forall_mem_cons.1 hcycles
    obtain ⟨t, ht, htr, htl, ht0, htready⟩ := runOps_taken_cycle hr hl h0 hinit hcount
    rw [List.flatMap_cons, receivedBytes_append ht, receivedBytes_taken_cycle hr hl h0 hready hinit hcount,
      ih t htr htl ht0 htready hrest]
    rfl

end Sys2Proof.Machine
end

section
/-! Where an operation stops: before `INIT` (42_system.md R137), and for an edge outside the invariants (10_state.md
R36). -/

namespace Sys2Proof.Machine

/-! ### The guards -/

/-- In a running state a guarded operation goes on. -/
theorem State.whenRunning_of_running {s : State} (hr : s.lifecycle = .running) (t : State) :
    s.whenRunning t = .next t :=
  State.whenRunning_eq_next_iff.2 ⟨hr, rfl⟩

/-- Before `INIT` a guarded operation is stuck. -/
theorem State.whenRunning_of_beforeInit {s : State} (hb : s.lifecycle = .beforeInit) (t : State) :
    s.whenRunning t = .fault .stuckBeforeInit := by
  simp [State.whenRunning, hb]

/-- Before `INIT` no operation but `INIT` has a step. -/
theorem exec_of_beforeInit {i : Instr} {s : State} (hb : s.lifecycle = .beforeInit) (hi : i ≠ .init) :
    exec i s = .fault .stuckBeforeInit := by
  cases i with
  | nop | arm | take | reserved => exact State.whenRunning_of_beforeInit hb _
  | edge b =>
    have hguard : ¬ (s.lifecycle = .running ∧ ¬ s.Lawful) := by simp [hb]
    exact (if_neg hguard).trans (State.whenRunning_of_beforeInit hb _)
  | init => exact absurd rfl hi

/-- An edge has no meaning outside the invariants. -/
theorem exec_edge_of_not_lawful {s : State} (hr : s.lifecycle = .running) (hl : ¬ s.Lawful) (b : Level) :
    exec (.edge b) s = .refused .outsideInvariants :=
  if_pos ⟨hr, hl⟩

/-! ### The obligations -/

/-- Settles O17: a rising transition is guarded as the operations are. -/
theorem nothingActsBeforeInit : Obligations.NothingActsBeforeInit := by
  refine ⟨fun i s => exec_of_beforeInit, fun s rest hb ha => ?_⟩
  rw [step, State.fetch_of_rise ha]
  exact State.whenRunning_of_beforeInit (s := { s with arrivals := rest }) hb _

/-- Settles O18: each of the three conditions contradicts one clause of the invariants. -/
theorem edgeOutsideTheInvariantsIsRefused : Obligations.EdgeOutsideTheInvariantsIsRefused := by
  refine fun b s hr hout => exec_edge_of_not_lawful hr (fun hl => ?_) b
  obtain ⟨hcnt, hle, hacc⟩ := s.lawful_iff.1 hl
  rcases hout with hcnt' | hle' | hacc'
  · exact hcnt' hcnt
  · omega
  · omega

end Sys2Proof.Machine
end

section
/-! What is not observed: two runs that step alike through related states show the same wherever the relation does.
The relations are what the engine sends (40_link_engine.md section 5), what the host receives (10_state.md R34) and the
hidden residue (93_implementation_defined.md U10). -/

namespace Sys2Proof.Machine

/-! ### Steps through related states -/

/-- Two outcomes that stop for the same reason or go on to states related by `R`. -/
inductive OutcomesAlike (R : State → State → Prop) : Out → Out → Prop where
  | next {s t : State} (h : R s t) : OutcomesAlike R (.next s) (.next t)
  | fault (r : Fault) : OutcomesAlike R (.fault r) (.fault r)
  | refused (r : Refusal) : OutcomesAlike R (.refused r) (.refused r)

/-- From related states, operations that are the same up to `Same` have outcomes alike. -/
def StepsAlike (Same : Instr → Instr → Prop) (R : State → State → Prop) : Prop :=
  ∀ i j s t, Same i j → R s t → OutcomesAlike R (exec i s) (exec j t)

section
variable {R : State → State → Prop} {s t : State} (hlife : t.lifecycle = s.lifecycle)
include hlife

/-- Two host operations step alike if their effects are related. -/
theorem outcomesAlike_host {i j : Instr} (hi : i.agent = .host) (hj : j.agent = .host)
    (h : R (s.afterHost i) (t.afterHost j)) : OutcomesAlike R (exec i s) (exec j t) := by
  cases hs : s.lifecycle with
  | beforeInit =>
    rw [exec_of_beforeInit hs (Instr.ne_init_of_host hi),
      exec_of_beforeInit (hlife.trans hs) (Instr.ne_init_of_host hj)]
    exact .fault _
  | running =>
    rw [exec_host hi hs, exec_host hj (hlife.trans hs)]
    exact .next h

/-- Two edges step alike if both states are lawful or neither is, and the effects are related. -/
theorem outcomesAlike_edge {b c : Level} (hlawful : t.lawful = s.lawful)
    (h : s.Lawful → R (s.afterEdge b) (t.afterEdge c)) : OutcomesAlike R (exec (.edge b) s) (exec (.edge c) t) := by
  cases hs : s.lifecycle with
  | beforeInit =>
    rw [exec_of_beforeInit (i := .edge b) hs nofun, exec_of_beforeInit (i := .edge c) (hlife.trans hs) nofun]
    exact .fault _
  | running =>
    by_cases hl : s.Lawful
    · rw [exec_edge hs hl, exec_edge (hlife.trans hs) (hlawful.trans hl)]
      exact .next (h hl)
    · have hl' : ¬ t.Lawful := fun h' => hl (hlawful.symm.trans h')
      rw [exec_edge_of_not_lawful hs hl, exec_edge_of_not_lawful (hlife.trans hs) hl']
      exact .refused _

/-- Two `INIT`s step alike if what they set is related. -/
theorem outcomesAlike_init (h : R s.afterInit t.afterInit) : OutcomesAlike R (exec .init s) (exec .init t) := by
  cases hs : s.lifecycle with
  | beforeInit =>
    rw [exec_init_eq_next_iff.2 ⟨hs, rfl⟩, exec_init_eq_next_iff.2 ⟨hlife.trans hs, rfl⟩]
    exact .next h
  | running =>
    rw [exec_init_of_running hs, exec_init_of_running (hlife.trans hs)]
    exact .refused _

end

/-! ### Runs through related states -/

section
variable {Same : Instr → Instr → Prop} {R : State → State → Prop} {ops ops' : List Instr} {s t : State}

/-- Runs alike give the same answers on the host port, if related states have the same response. -/
theorem StepsAlike.hostAnswers_eq (h : StepsAlike Same R) (hresponse : ∀ {s t}, R s t → t.response = s.response)
    (hops : List.Forall₂ Same ops ops') (hst : R s t) : hostAnswers ops s = hostAnswers ops' t := by
  induction hops generalizing s t with
  | nil => rfl
  | cons hij _ ih =>
    have hstep := h _ _ s t hij hst
    simp only [hostAnswers]
    generalize exec _ s = o, exec _ t = o' at hstep ⊢
    cases hstep with
    | next huv => simp only [hresponse huv, ih huv]
    | fault r => rfl
    | refused r => rfl

/-- Runs alike drive the same levels, if they have their edges at the same places and related states have the same
level. -/
theorem StepsAlike.drivenLevels_eq (h : StepsAlike Same R) (hsout : ∀ {s t}, R s t → t.sout = s.sout)
    (hedge : ∀ {i j}, Same i j → (sampleOf j).isSome = (sampleOf i).isSome)
    (hops : List.Forall₂ Same ops ops') (hst : R s t) : drivenLevels ops s = drivenLevels ops' t := by
  induction hops generalizing s t with
  | nil => rfl
  | cons hij _ ih =>
    have hstep := h _ _ s t hij hst
    simp only [drivenLevels]
    generalize exec _ s = o, exec _ t = o' at hstep ⊢
    cases hstep with
    | next huv => simp only [hsout huv, hedge hij, ih huv]
    | fault r => rfl
    | refused r => rfl

/-- Runs alike are observed alike, if related states are. -/
theorem StepsAlike.observations_eq (h : StepsAlike Same R) (hobserve : ∀ {s t}, R s t → t.observe = s.observe)
    (hops : List.Forall₂ Same ops ops') (hst : R s t) : observations ops s = observations ops' t := by
  induction hops generalizing s t with
  | nil => rfl
  | cons hij _ ih =>
    have hstep := h _ _ s t hij hst
    simp only [observations]
    generalize exec _ s = o, exec _ t = o' at hstep ⊢
    cases hstep with
    | next huv => simp only [hobserve huv, ih huv]
    | fault r => rfl
    | refused r => rfl

end

/-! ### The edge, field by field -/

/-- Every field after an edge, at the byte boundary and short of it (40_link_engine.md R100). -/
theorem State.afterEdge_eq (s : State) (b : Level) : s.afterEdge b =
    { s with
      rxAcc := if s.endsByte then 0x00#8 else shiftIn s.rxAcc b
      rxCnt := if s.endsByte then 0#4 else s.nextRxCnt
      txByte := if s.endsByte then 0x00#8 else s.cycleByte
      txCnt := if s.endsByte then 0#4 else s.nextTxCnt
      latched := if s.endsByte then shiftIn s.rxAcc b else s.latched
      ready := s.endsByte || s.ready
      sout := s.outBit
      response := none } := by
  cases hb : s.endsByte with
  | true => rw [State.afterEdge_of_endsByte hb]; rfl
  | false => rw [State.afterEdge_of_not_endsByte hb]; rfl

/-! ### No input affects an output -/

/-- Two states that differ at most in what has been received, and are both lawful or both not. -/
def State.agreeButReceived (s t : State) : Prop :=
  t.lawful = s.lawful ∧ ∃ acc l r w, t = { s with rxAcc := acc, latched := l, ready := r, response := w }

/-- After edges of any two samples, states that agree but for what has been received still do so. -/
theorem State.agreeButReceived.afterEdge {s t : State} (h : s.agreeButReceived t) (hl : s.Lawful) (b c : Level) :
    (s.afterEdge b).agreeButReceived (t.afterEdge c) := by
  obtain ⟨hlawful, acc, l, r, w, rfl⟩ := h
  refine ⟨(State.Lawful.afterEdge (hlawful.trans hl) c).trans (hl.afterEdge b).symm, ?_⟩
  rw [State.afterEdge_eq, State.afterEdge_eq]
  exact ⟨_, _, _, _, rfl⟩

/-- Operations that differ at most in the sample of an `EDGE`. -/
def sameButSample (i j : Instr) : Prop := i = j ∨ (sampleOf i).isSome = true ∧ (sampleOf j).isSome = true

/-- Operations that differ in the sample are two edges. -/
theorem sameButSample.eq_or_edges {i j : Instr} (h : sameButSample i j) :
    i = j ∨ ∃ b c, i = .edge b ∧ j = .edge c := by
  rcases h with rfl | ⟨hi, hj⟩
  · exact .inl rfl
  · obtain ⟨b, hb⟩ := Option.isSome_iff_exists.1 hi
    obtain ⟨c, hc⟩ := Option.isSome_iff_exists.1 hj
    exact .inr ⟨b, c, eq_edge_of_sampleOf hb, eq_edge_of_sampleOf hc⟩

/-- What has been received changes neither whether an operation goes on nor what it sends. -/
theorem stepsAlike_agreeButReceived : StepsAlike sameButSample State.agreeButReceived := by
  intro i j s t hij h
  have hafter (hl : s.Lawful) (b c : Level) := h.afterEdge hl b c
  obtain ⟨hlawful, acc, l, r, w, rfl⟩ := h
  rcases hij.eq_or_edges with rfl | ⟨b, c, rfl, rfl⟩
  · rcases i.host_or_edge_or_init with hi | ⟨b, rfl⟩ | rfl
    · exact outcomesAlike_host (by rfl) hi hi ⟨hlawful, _, _, _, _, rfl⟩
    · exact outcomesAlike_edge (by rfl) hlawful fun hl => hafter hl b b
    · exact outcomesAlike_init (by rfl) ⟨rfl, _, _, _, _, rfl⟩
  · exact outcomesAlike_edge (by rfl) hlawful fun hl => hafter hl b c

/-- Settles O43: the runs step alike through states that agree but for what has been received. -/
theorem outputsDoNotDependOnInputs : Obligations.OutputsDoNotDependOnInputs := by
  refine fun ops ops' s hops => stepsAlike_agreeButReceived.drivenLevels_eq ?_ ?_ hops ⟨rfl, _, _, _, _, rfl⟩
  · rintro s t ⟨-, _, _, _, _, rfl⟩
    rfl
  · rintro i j (rfl | ⟨hi, hj⟩)
    · rfl
    · rw [hi, hj]

/-! ### What is armed affects no answer -/

/-- Two states that differ at most in what is sent. -/
def State.agreeButSent (s t : State) : Prop :=
  ∃ p x o, t = { s with pending := p, txByte := x, sout := o }

/-- Operations that differ at most in the byte of an `ARM`. -/
def sameButArmed (i j : Instr) : Prop := i = j ∨ ∃ x y, i = .arm x ∧ j = .arm y

/-- After an edge, states that agree but for what is sent still do so. -/
theorem State.agreeButSent.afterEdge {s t : State} (h : s.agreeButSent t) (b : Level) :
    (s.afterEdge b).agreeButSent (t.afterEdge b) := by
  obtain ⟨p, x, o, rfl⟩ := h
  rw [State.afterEdge_eq, State.afterEdge_eq]
  exact ⟨_, _, _, rfl⟩

/-- What is sent changes neither whether an operation goes on nor what it answers. -/
theorem stepsAlike_agreeButSent : StepsAlike sameButArmed State.agreeButSent := by
  intro i j s t hij h
  have hafter := h.afterEdge
  obtain ⟨p, x, o, rfl⟩ := h
  rcases hij with rfl | ⟨y, z, rfl, rfl⟩
  · rcases i.host_or_edge_or_init with hi | ⟨b, rfl⟩ | rfl
    · exact outcomesAlike_host (by rfl) hi hi ⟨_, _, _, rfl⟩
    · exact outcomesAlike_edge (by rfl) (by rfl) fun _ => hafter b
    · exact outcomesAlike_init (by rfl) ⟨_, _, _, rfl⟩
  · exact outcomesAlike_host (by rfl) (by rfl) (by rfl) ⟨_, _, _, rfl⟩

/-- Settles O44: the runs step alike through states that agree but for what is sent. -/
theorem receivedBytesDoNotDependOnArms : Obligations.ReceivedBytesDoNotDependOnArms := by
  refine fun ops ops' s p hops => stepsAlike_agreeButSent.hostAnswers_eq ?_ hops ⟨_, _, _, rfl⟩
  rintro s t ⟨_, _, _, rfl⟩
  rfl

/-! ### The host cannot see the engine -/

/-- Two states that differ at most in what the host cannot read. -/
def State.agreeForHost (s t : State) : Prop :=
  ∃ acc rc x tc p o, t = { s with rxAcc := acc, rxCnt := rc, txByte := x, txCnt := tc, pending := p, sout := o }

/-- What the host cannot read changes no answer of a host operation. -/
theorem stepsAlike_agreeForHost : StepsAlike (fun i j => i = j ∧ i.agent = .host) State.agreeForHost := by
  rintro i _ s _ ⟨rfl, hi⟩ ⟨_, _, _, _, _, _, rfl⟩
  exact outcomesAlike_host (by rfl) hi hi ⟨_, _, _, _, _, _, rfl⟩

/-- Settles O51: the run steps alike through states that agree in what the host can read. -/
theorem hostCannotSeeTheEngine : Obligations.HostCannotSeeTheEngine := by
  intro ops s acc x p rc tc o hops
  refine (stepsAlike_agreeForHost.hostAnswers_eq ?_ (List.forall₂_same.2 fun i hi => ⟨rfl, hops i hi⟩)
    ⟨acc, rc, x, tc, p, o, rfl⟩).symm
  rintro s t ⟨_, _, _, _, _, _, rfl⟩
  rfl

/-! ### The hidden residue -/

/-- States that agree but for the hidden residue load or keep the same byte in a cycle (40_link_engine.md R103). -/
theorem State.agreeButHidden.cycleByte {s t : State} (h : s.agreeButHidden t) : t.cycleByte = s.cycleByte := by
  obtain ⟨l, x, rfl, -, hx⟩ := h
  by_cases h0 : s.txCnt = 0#4
  · simp [State.cycleByte, h0]
  · simp [State.cycleByte, h0, hx h0]

/-- A host operation answers the same in states that agree but for the hidden residue. -/
theorem State.agreeButHidden.answerTo {s t : State} (h : s.agreeButHidden t) (i : Instr) :
    t.answerTo i = s.answerTo i := by
  obtain ⟨l, x, rfl, hl, -⟩ := h
  cases hready : s.ready with
  | true => simp [State.answerTo, hready, hl hready]
  | false => simp [State.answerTo, hready]

/-- A host operation keeps the hidden residue hidden: none of them sets `ready` or moves the phase. -/
theorem State.agreeButHidden.afterHost {s t : State} (h : s.agreeButHidden t) (i : Instr) :
    (s.afterHost i).agreeButHidden (t.afterHost i) := by
  have hanswer := h.answerTo i
  obtain ⟨l, x, rfl, hl, hx⟩ := h
  refine ⟨l, x, ?_, fun hready => hl (Bool.and_eq_true_iff.1 hready).1, hx⟩
  unfold State.afterHost
  rw [hanswer]

/-- An edge keeps the hidden residue hidden: it overwrites `latched` where it sets `ready`, and loads `tx_byte` where it
leaves phase 0. -/
theorem State.agreeButHidden.afterEdge {s t : State} (h : s.agreeButHidden t) (b : Level) :
    (s.afterEdge b).agreeButHidden (t.afterEdge b) := by
  have hbyte := h.cycleByte
  obtain ⟨l, x, rfl, hl, hx⟩ := h
  have hout : State.outBit { s with latched := l, txByte := x } = s.outBit :=
    congrArg (BitVec.getLsbD · s.outIndex) hbyte
  rw [State.afterEdge_eq, State.afterEdge_eq, hout, hbyte]
  refine ⟨if s.endsByte then shiftIn s.rxAcc b else l, _, rfl, fun hready => ?_, fun _ => rfl⟩
  cases hb : s.endsByte with
  | true => rfl
  | false => exact hl (by simpa [hb] using hready)

/-- The hidden residue changes neither whether an operation goes on nor what is observed after it. -/
theorem stepsAlike_agreeButHidden : StepsAlike (· = ·) State.agreeButHidden := by
  rintro i _ s t rfl h
  have hlife : t.lifecycle = s.lifecycle := by obtain ⟨_, _, rfl, -⟩ := h; rfl
  rcases i.host_or_edge_or_init with hi | ⟨b, rfl⟩ | rfl
  · exact outcomesAlike_host hlife hi hi (h.afterHost i)
  · refine outcomesAlike_edge hlife ?_ fun _ => h.afterEdge b
    obtain ⟨_, _, rfl, -⟩ := h
    rfl
  · obtain ⟨_, _, rfl, -⟩ := h
    exact outcomesAlike_init (by rfl) ⟨_, _, rfl, fun _ => rfl, fun _ => rfl⟩

/-- Settles O52: the run steps alike through states that agree but for the hidden residue, and none of that is
observed. -/
theorem hiddenResidueIsNeverObserved : Obligations.HiddenResidueIsNeverObserved := by
  refine fun ops s t h => stepsAlike_agreeButHidden.observations_eq ?_ (List.forall₂_same.2 fun _ _ => rfl) h
  rintro s t ⟨_, _, rfl, -⟩
  rfl

end Sys2Proof.Machine
end

section
/-! The containers of the port words (30_encoding.md section 1, log entry 11) and the serial frame of a byte (section
2). -/

namespace Sys2Proof

/-! ### The containers -/

/-- Every port word is read back from its container. -/
theorem portWordOf_container (pw : PortWord) : portWordOf pw.containerBits pw.value = .ok pw := by
  cases pw with
  | command cw =>
    have hlt : cw.toNat < 1024 := cw.isLt
    simp [portWordOf, PortWord.containerBits, PortWord.value, hlt]
  | link i => cases i <;> rfl
  | reset => rfl

/-- A container decodes to an operation exactly when it holds a port word that does. -/
theorem decodeTableWord_eq_some_iff {nbits w : Nat} {i : Instr} :
    decodeTableWord nbits w = some i ↔ ∃ pw, portWordOf nbits w = .ok pw ∧ decodePort pw = i := by
  unfold decodeTableWord decodeWord
  cases portWordOf nbits w with
  | ok pw => simp [Except.map, Except.toOption]
  | error r => simp [Except.map, Except.toOption]

/-- A container that holds no port word decodes to nothing. -/
theorem decodeTableWord_of_error {nbits w : Nat} {r : DecodeReject} (h : portWordOf nbits w = .error r) :
    decodeTableWord nbits w = none := by
  simp [decodeTableWord, decodeWord, h, Except.map, Except.toOption]

/-- Only a reset event is `INIT` (30_encoding.md R88). -/
theorem decodePort_eq_init_iff {pw : PortWord} : decodePort pw = .init ↔ pw = .reset := by
  cases pw with
  | command cw => simp [Instr.ne_init_of_host (decodeCommand_agent cw)]
  | link i => simp
  | reset => simp

/-- Settles O3: the port word is read back from its container, and the operation from the port word. -/
theorem decodeOfEncodeIsTheOperation : Obligations.DecodeOfEncodeIsTheOperation :=
  fun i => ⟨decodePort_encode i, decodeTableWord_eq_some_iff.2 ⟨encode i, portWordOf_container _, decodePort_encode i⟩⟩

/-- Settles O6: each container fails the test of its own format, or has none. -/
theorem bitsNoPortHasAreRejected : Obligations.BitsNoPortHasAreRejected := by
  refine ⟨fun w hw => ?_, fun w hw => ?_, fun w hw => ?_, fun n w hn => ?_⟩
  · exact decodeTableWord_of_error (r := .bitsAboveTheCommandWord) (by simp [portWordOf, hw])
  · exact decodeTableWord_of_error (r := .bitsAboveTheSample) (by simp [portWordOf, Nat.lt_of_succ_le hw])
  · exact decodeTableWord_of_error (r := .bitsInAResetEvent) (by simp [portWordOf, hw])
  · have h0 : n ≠ 0 := by omega
    have h8 : ¬ n ≤ 8 := by omega
    exact decodeTableWord_of_error (r := .noFormatOfThisWidth) (by simp [portWordOf, h0, h8, hn])

/-- Settles O1: by evaluation of the decoder on the twelve words. -/
theorem spelledOutWordsDecode : Obligations.SpelledOutWordsDecode := by
  unfold Obligations.SpelledOutWordsDecode
  decide

/-! ### The serial frame -/

/-- Eight bits are the frame of the byte that they spell (30_encoding.md R86, R87). -/
theorem frameBits_frameByte_eight (i1 i2 i3 i4 i5 i6 i7 i8 : Level) :
    frameBits (frameByte [i1, i2, i3, i4, i5, i6, i7, i8]) = [i1, i2, i3, i4, i5, i6, i7, i8] := by
  have hbit := frameByte_getLsbD (bits := [i1, i2, i3, i4, i5, i6, i7, i8]) (Nat.le_refl 8)
  simp only [frameBits, hbit]
  rfl

/-- Settles O7: a byte and its frame determine each other, and the number is that of the frame's weights. -/
theorem serialFrameIsMsbFirst : Obligations.SerialFrameIsMsbFirst :=
  ⟨frameByte_frameBits, fun i1 i2 i3 i4 i5 i6 i7 i8 =>
    ⟨frameBits_frameByte_eight i1 i2 i3 i4 i5 i6 i7 i8, frameByte_eight_toNat i1 i2 i3 i4 i5 i6 i7 i8⟩⟩

end Sys2Proof
end

section
/-! The step: it applies the operation presented first, or `NOP` (20_memory.md R62); and what it keeps (10_state.md
section 9). -/

namespace Sys2Proof.Machine

/-! ### What a step applies -/

/-- A word placed from outside, if it is not the reset event, is applied by the next step in the same state. -/
theorem step_present {s : State} {pw : PortWord} (h : pw ≠ .reset) : step (s.present pw) = exec (decodePort pw) s := by
  cases pw with
  | command cw => exact step_of_arrivalOf (pw := .command cw) rfl
  | link b => exact step_of_arrivalOf (pw := .link b) rfl
  | reset => exact absurd rfl h

/-- Settles O19: placing a word presents it first, and placing `INIT` takes the machine to where a run begins. -/
theorem stepRunsTheDecodedOperation : Obligations.StepRunsTheDecodedOperation := by
  refine ⟨fun s pw rest => step_of_arrivalOf, fun s nbits w i hw hi => ?_, fun s nbits w hw => ?_⟩
  · obtain ⟨pw, hpw, rfl⟩ := decodeTableWord_eq_some_iff.1 hw
    rw [State.withFetchWord, hpw]
    exact step_present fun h => hi (decodePort_eq_init_iff.2 h)
  · obtain ⟨pw, hpw, hinit⟩ := decodeTableWord_eq_some_iff.1 hw
    obtain rfl := decodePort_eq_init_iff.1 hinit
    rw [State.withFetchWord, hpw]
    exact step_of_arrivalOf (pw := .reset) rfl

/-- Settles O20: with nothing presented the idle code is taken, which decodes to `NOP`. -/
theorem idleStepIsNop : Obligations.IdleStepIsNop := by
  intro s ha
  rw [step, State.fetch_of_nil ha]
  rfl

/-- Settles O21: a rising transition is taken as no operation. -/
theorem risingTransitionDoesNothing : Obligations.RisingTransitionDoesNothing := by
  intro s rest hr ha
  rw [step, State.fetch_of_rise ha]
  exact State.whenRunning_of_running (s := { s with arrivals := rest }) hr _

/-- Settles O23: by induction on the operations presented. -/
theorem stepsRunThePresentedOperations : Obligations.StepsRunThePresentedOperations := runSteps_presented

/-! ### The invariant -/

/-- Taking what is presented changes the schedule alone. -/
theorem State.fetch_eq (s : State) : ∃ pw a n, s.fetch = (pw, s.withSchedule a n) := by
  cases hacts : s.scheduledActs with
  | nil => exact ⟨_, s.arrivals, s.coincidences, State.fetch_of_nil (arrivals_eq_nil_of_scheduled hacts)⟩
  | cons act acts =>
    obtain ⟨pw, a, n, hfetch, -, -⟩ := State.fetch_of_scheduledActs hacts
    exact ⟨pw, a, n, hfetch⟩

/-- A step that goes on applies an operation, or a rising transition, under some schedule. -/
theorem step_eq_next {s t : State} (h : step s = .next t) :
    ∃ a n, (∃ i, exec i (s.withSchedule a n) = .next t) ∨ t = (s.withSchedule a n).noResponse := by
  obtain ⟨pw, a, n, hfetch⟩ := s.fetch_eq
  refine ⟨a, n, ?_⟩
  rw [step, hfetch] at h
  cases pw with
  | some pw => exact .inl ⟨decodePort pw, h⟩
  | none => exact .inr (State.whenRunning_eq_next_iff.1 h).2

/-- A lawful edge leaves `tx_byte` 0 where it leaves the phase at 0 (10_state.md R36). -/
theorem State.Lawful.afterEdge_parked {s : State} (hl : s.Lawful) (b : Level) (h0 : (s.afterEdge b).txCnt = 0#4) :
    (s.afterEdge b).txByte = 0x00#8 := by
  have hnext := hl.afterEdge_txCnt_toNat b
  have hle := hl.txCnt_le
  have h7 : s.txCnt.toNat = 7 := by
    rw [h0, BitVec.toNat_ofNat] at hnext
    omega
  have hb : s.endsByte = true := s.endsByte_iff.2 ((s.lawful_iff.1 hl).1.trans (BitVec.eq_of_toNat_eq h7))
  rw [State.afterEdge_of_endsByte hb, State.clearShift_txByte]

/-- Every operation keeps the invariant: the host leaves the engine, and `INIT` clears it. -/
theorem exec_keeps_inv {i : Instr} {s t : State} (hinv : s.Inv) (h : exec i s = .next t) : t.Inv := by
  rcases i.host_or_edge_or_init with hi | ⟨b, rfl⟩ | rfl
  · obtain rfl := eq_afterHost_of_exec hi h
    exact hinv
  · obtain ⟨-, hl, rfl⟩ := exec_edge_eq_next_iff.1 h
    exact fun _ => ⟨hl.afterEdge b, hl.afterEdge_parked b⟩
  · obtain ⟨-, rfl⟩ := exec_init_eq_next_iff.1 h
    exact fun _ => ⟨s.afterInit_lawful, fun _ => rfl⟩

/-- Settles O25: a step applies an operation, which keeps the invariant, or does nothing; no schedule is part of it. -/
theorem everyStepKeepsTheInvariant : Obligations.EveryStepKeepsTheInvariant := by
  intro s t hinv h
  obtain ⟨a, n, ⟨i, hi⟩ | rfl⟩ := step_eq_next h
  · exact exec_keeps_inv (s := s.withSchedule a n) hinv hi
  · exact hinv

/-- Settles O26: every field that the invariant reads is 0 at reset. -/
theorem resetMeetsTheInvariant : Obligations.ResetMeetsTheInvariant := ⟨fun _ => ⟨rfl, fun _ => rfl⟩, rfl⟩

/-- Settles O27: by the kind of the operation. -/
theorem everyOperationAlwaysApplies : Obligations.EveryOperationAlwaysApplies :=
  fun _ _ hr hl hi => exec_completes hi hr hl

end Sys2Proof.Machine
end

section
/-! The effect of each operation as the pseudocode of the spec gives it, and the frame of each agent's operations
(60_exceptions.md R165). -/

namespace Sys2Proof.Machine

/-! ### The next state of each operation -/

/-- Settles O9: the mask leaves `op` 11, and the reserved code has the effect of `NOP`. -/
theorem reservedCodeActsAsNop : Obligations.ReservedCodeActsAsNop :=
  ⟨fun _ hcw => decodeCommand_of_op_reserved (commandOp_eq_of_masked hcw), fun _ hr =>
    ⟨exec_reserved_eq_next_iff.2 ⟨hr, rfl⟩, rfl⟩⟩

/-- Settles O10: `ARM` goes on in a running state. -/
theorem armOverwritesPending : Obligations.ArmOverwritesPending :=
  fun _ _ hr => exec_arm_eq_next_iff.2 ⟨hr, rfl⟩

/-- Settles O11: the waiting byte is taken, or there is none. -/
theorem takeReadsAndClearsReady : Obligations.TakeReadsAndClearsReady :=
  fun _ hr => ⟨fun hready => exec_take_eq_next_iff.2 ⟨hr, (State.takeLatched_of_ready hready).symm⟩,
    exec_take_of_not_ready hr⟩

/-- Settles O12: short of the boundary the shifted registers are stored. -/
theorem edgeInsideACycle : Obligations.EdgeInsideACycle := by
  intro b s hr hl h7
  rw [exec_edge hr hl, State.afterEdge_of_not_endsByte (s.endsByte_eq_false_iff.2 h7)]
  rfl

/-- Settles O13: at the boundary the byte is latched and the registers are cleared; the count 7 selects bit 0. -/
theorem edgeAtTheByteBoundary : Obligations.EdgeAtTheByteBoundary := by
  intro b s hr hl h7
  have htx : s.txCnt = 7#4 := (s.lawful_iff.1 hl).1.symm.trans h7
  have hout : s.outBit = s.txByte.getLsbD 0 := by
    rw [State.outBit_of_txCnt_ne_zero (by simp [htx]), htx]
    rfl
  rw [exec_edge hr hl, State.afterEdge_of_endsByte (s.endsByte_iff.2 h7), hout]
  rfl

/-- Settles O14: `INIT` goes on where it has not been applied. -/
theorem initSetsEveryField : Obligations.InitSetsEveryField :=
  fun _ hb => exec_init_eq_next_iff.2 ⟨hb, rfl⟩

/-! ### What each agent's operations leave -/

/-- Of the host's operations only `ARM` writes `pending`. -/
theorem eq_arm_of_pendingAfter_ne {i : Instr} {p : Byte} (hi : i.agent = .host) (h : pendingAfter i p ≠ p) :
    i = .arm (pendingAfter i p) := by
  cases i with
  | arm b => rfl
  | nop | take | reserved => exact absurd rfl h
  | edge | init => cases hi

/-- Settles O30: the effect of a host operation, in which only `TAKE` clears `ready` and only `ARM` writes `pending`. -/
theorem hostOperationsLeaveTheEngineAlone : Obligations.HostOperationsLeaveTheEngineAlone := by
  intro i s t hi h
  obtain rfl := eq_afterHost_of_exec hi h
  refine ⟨rfl, rfl, rfl, rfl, rfl, rfl, rfl, rfl, rfl, fun hready => ?_, eq_arm_of_pendingAfter_ne hi⟩
  rw [State.afterHost_ready] at hready ⊢
  by_cases ht : i = .take
  · subst ht
    exact ⟨rfl, by simpa using hready, by simp⟩
  · simp [ht] at hready

/-- Settles O31: an edge writes `ready` and `latched` at the boundary alone, and there it sets `ready`. -/
theorem edgeLeavesTheHostsSideAlone : Obligations.EdgeLeavesTheHostsSideAlone := by
  intro b s t h
  obtain ⟨-, -, rfl⟩ := exec_edge_eq_next_iff.1 h
  refine ⟨s.afterEdge_pending b, s.afterEdge_lifecycle b, s.afterEdge_arrivals b, s.afterEdge_coincidences b,
    fun hready => by simp [hready], fun h7 => ?_⟩
  have hb : s.endsByte = false := s.endsByte_eq_false_iff.2 h7
  simp [hb]

/-! ### Arming again -/

/-- With no `ARM` of another value, a byte armed stays the byte pending. -/
theorem lastArmed_eq_self {ops : List Instr} {b : Byte} (hinit : Instr.init ∉ ops)
    (harm : ∀ x, Instr.arm x ∈ ops → x = b) : lastArmed ops b = b := by
  induction ops with
  | nil => rfl
  | cons i is ih =>
    obtain ⟨hi, his⟩ := List.ne_and_not_mem_of_not_mem_cons hinit
    have hfirst : pendingAfter i b = b := by
      cases i with
      | arm x => exact harm x List.mem_cons_self
      | init => exact absurd rfl hi
      | nop | take | reserved | edge => rfl
    calc lastArmed (i :: is) b = lastArmed is (pendingAfter i b) := rfl
      _ = lastArmed is b := by rw [hfirst]
      _ = b := ih his fun x hx => harm x (List.mem_cons_of_mem i hx)

/-- A run keeps the block running. -/
theorem runOps_lifecycle {ops : List Instr} {s t : State} (hr : s.lifecycle = .running) (h : runOps ops s = .next t) :
    t.lifecycle = .running := by
  induction ops generalizing s with
  | nil => cases h; exact hr
  | cons i is ih =>
    obtain ⟨u, hu, ht⟩ := runOps_cons_eq_next_iff.1 h
    exact ih (exec_lifecycle hu).2 ht

/-- Settles O48: the byte armed is still pending after the run, so that arming it again leaves the block. -/
theorem armIsIdempotent : Obligations.ArmIsIdempotent := by
  intro b ops s t hinit harm h
  obtain ⟨u, hu, hrest⟩ := runOps_cons_eq_next_iff.1 h
  have htr : t.lifecycle = .running := runOps_lifecycle (exec_lifecycle hu).2 hrest
  have hpending : t.pending = b := (runOps_pending h).trans (lastArmed_eq_self hinit harm)
  refine ⟨t.afterHost (.arm b), runOps_append_singleton h (exec_host rfl htr), ?_⟩
  rw [State.block_eq_iff]
  simp [pendingAfter, hpending]

end Sys2Proof.Machine
end
